-- ==== Sys2Proof/Word.lean ====
section
/-! DEFINITION. The words of the block (spec/00_scope.md R13, R14, R16): bytes, byte strings, the 16-bit CRC value, the 32-bit control
word. Every quantity is unsigned (R13). -/

namespace Sys2Proof

/-- A byte is 8 bits (R14). -/
abbrev Byte := BitVec 8

/-- A byte string: a finite sequence of bytes, first byte first (R14). -/
abbrev Bytes := List Byte

/-- A CRC value: 16 bits (R16). -/
abbrev CrcWord := BitVec 16

/-- A protocol control word: 32 bits (R16). -/
abbrev CtlWord := BitVec 32

end Sys2Proof
end

