-- ==== Sys2Proof/Config.lean ====
section
/-! DEFINITION. The constants of one instance of the block (spec/10_state.md R27): the ones the spec leaves OPEN. The three that have one
value for every instance (HEADER, POLY, INIT) are in Machine/Constants.lean. -/

namespace Sys2Proof

/-- The OPEN constants of an instance (R8, R11, R27): fixed when the instance is made, never changed afterwards, reset included (R171).
Held as plain data beside the state, so that statements hold for every choice of them (DESIGN CHOICE, log 3; safe). -/
structure Config where
  /-- `PROTO_TYPE`: what BUILD places in control word bits 31:24 (R8). -/
  protoType : Byte
  /-- `PROTO_VER`: what BUILD places in control word bits 23:16 (R8). -/
  protoVer : Byte
  /-- `CAP`: the capacity of the reassembly buffer in bytes; `none` is "unbounded" (R11). -/
  cap : Option Nat
  deriving DecidableEq, Repr

/-- The protocol type of the instance that `State.reset` is about. The spec gives no value (R8, D7), so it has none here (log 3). -/
opaque Config.openProtoType : Byte

/-- The protocol version of the instance that `State.reset` is about. The spec gives no value (R8, D7), so it has none here (log 3). -/
opaque Config.openProtoVer : Byte

/-- The constants of the instance that `State.reset` is about: type and version open, capacity the spec's default, unbounded (R11). -/
def Config.fixed : Config :=
  { protoType := Config.openProtoType, protoVer := Config.openProtoVer, cap := none }

end Sys2Proof
end

