-- ==== Sys2Proof/Machine/Bytes.lean ====
section
/-! DEFINITION. Byte strings: indexing, slices and the big-endian forms of 16-bit and 32-bit values (spec/00_scope.md R14,
spec/20_memory.md R42). -/

namespace Sys2Proof.Machine

/-- `s[i]` (R14). Beyond the end it reads as zero, a case no operation reaches (R46, R115 (e); log 14). -/
def byteAt (s : Bytes) (i : Nat) : Byte := s.getD i 0

/-- `s[i..j)` (R14): the bytes at indices i up to but not including j. -/
def slice (s : Bytes) (i j : Nat) : Bytes := (s.drop i).take (j - i)

/-- `be16(v)`: the 2-byte big-endian string of v (R14, R42). -/
def be16 (v : BitVec 16) : Bytes := [v.extractLsb' 8 8, v.extractLsb' 0 8]

/-- `be32(v)`: the 4-byte big-endian string of v (R14, R42). -/
def be32 (v : BitVec 32) : Bytes :=
  [v.extractLsb' 24 8, v.extractLsb' 16 8, v.extractLsb' 8 8, v.extractLsb' 0 8]

/-- `BE16(s[i..i+2))`: most significant byte at the lower index (R14, R42). -/
def be16At (s : Bytes) (i : Nat) : BitVec 16 := byteAt s i ++ byteAt s (i + 1)

/-- `BE32(s[i..i+4))` (R14, R42). -/
def be32At (s : Bytes) (i : Nat) : BitVec 32 :=
  byteAt s i ++ byteAt s (i + 1) ++ byteAt s (i + 2) ++ byteAt s (i + 3)

end Sys2Proof.Machine
end

