-- ==== Sys2Proof/Machine/Constants.lean ====
section
/-! DEFINITION. The constants that every instance of the block shares (spec/00_scope.md R6, R7, R9, R10). -/

namespace Sys2Proof.Machine

/-- The first byte of every frame (R6). -/
def HEADER : Byte := 0x5A

/-- The CRC generator polynomial without its x^16 term (R7). -/
def POLY : CrcWord := 0x8005

/-- The value the CRC accumulator starts from (R7). -/
def INIT : CrcWord := 0x0000

/-- The length of the shortest frame (R9). -/
def MIN_FRAME : Nat := 9

/-- The longest payload a 2-byte length can declare (R10). -/
def MAX_PAYLOAD : Nat := 65535

/-- The length of the longest frame (R10). -/
def MAX_FRAME : Nat := MIN_FRAME + 1 + MAX_PAYLOAD

end Sys2Proof.Machine
end

