-- ==== Sys2Proof/Machine/CrcUnit.lean ====
section
/-! DEFINITION. The CRC-16 function (spec/40_crc.md R90). The loop body is the spec's decision D21 (log 9). -/

namespace Sys2Proof.Machine

/-- One shift-XOR iteration of `step`: test bit 15, shift left by one within 16 bits, XOR POLY if the tested bit was 1 (R90). -/
def crcShift (c : CrcWord) : CrcWord :=
  if c.getLsbD 15 then (c <<< 1) ^^^ POLY else c <<< 1

/-- `k` shift-XOR iterations. -/
def crcShifts : Nat → CrcWord → CrcWord
  | 0, c => c
  | k + 1, c => crcShifts k (crcShift c)

/-- `step(c, b)`: the byte into the high half of the accumulator, then 8 iterations (R90, R92). -/
def crcStep (c : CrcWord) (b : Byte) : CrcWord :=
  crcShifts 8 (c ^^^ (b.setWidth 16 <<< 8))

/-- The accumulator after the bytes of a string, first byte first (R90). -/
def crcFold (c : CrcWord) (data : Bytes) : CrcWord := data.foldl crcStep c

/-- `crc16(data)` (R90). -/
def crc16 (data : Bytes) : CrcWord := crcFold INIT data

end Sys2Proof.Machine
end

