-- ==== Sys2Proof/Machine/FrameFormat.lean ====
section
/-! DEFINITION. The wire frame (spec/30_encoding.md R60 to R68): the control word, the frame as bytes, and how a receiver finds a frame's
parts. -/

namespace Sys2Proof.Machine

/-- A bit as a 32-bit value. -/
def bit32 (b : Bool) : CtlWord := (BitVec.ofBool b).setWidth 32

/-- The control word that BUILD assembles: every field ORed in at its place, the category and the flags overlapping (R64, D4). -/
def assembleCw (cfg : Config) (category code : Byte) (rs485 notify : Bool) : CtlWord :=
  (cfg.protoType.setWidth 32 <<< 24) ||| (cfg.protoVer.setWidth 32 <<< 16) ||| (bit32 rs485 <<< 13) |||
    (bit32 notify <<< 12) ||| (category.setWidth 32 <<< 8) ||| code.setWidth 32

/-- The control word whose four bytes are given, most significant first (R63). -/
def cwOfBytes (protoType protoVer category code : Byte) : CtlWord := protoType ++ protoVer ++ category ++ code

/-- The protocol type, bits 31:24 (R65). -/
def cwProtoType (cw : CtlWord) : Byte := cw.extractLsb' 24 8
/-- The protocol version, bits 23:16 (R65). -/
def cwProtoVer (cw : CtlWord) : Byte := cw.extractLsb' 16 8
/-- The rs485 flag, bit 13 (R65): 1 iff the frame has an address byte (R60). -/
def cwRs485 (cw : CtlWord) : Bool := cw.getLsbD 13
/-- The notify flag, bit 12 (R65). -/
def cwNotify (cw : CtlWord) : Bool := cw.getLsbD 12
/-- The category, bits 15:8, any flag bits included (R65). -/
def cwCategory (cw : CtlWord) : Byte := cw.extractLsb' 8 8
/-- The code, bits 7:0 (R65). -/
def cwCode (cw : CtlWord) : Byte := cw.extractLsb' 0 8

/-- The number of address bytes: 1 when control word bit 13 is set, else 0 (R60). -/
def addrSize (cw : CtlWord) : Nat := if cwRs485 cw then 1 else 0

/-- The part of a frame that its CRC covers: control word, address if present, payload length, payload (R60, R67). -/
def frameBody (cw : CtlWord) (addr : Byte) (payload : Bytes) : Bytes :=
  be32 cw ++ (if cwRs485 cw then [addr] else []) ++ be16 (BitVec.ofNat 16 payload.length) ++ payload

/-- A frame on the wire with the given CRC field (R60 to R62). -/
def wireFrame (cw : CtlWord) (addr : Byte) (payload : Bytes) (crc : CrcWord) : Bytes :=
  [HEADER] ++ frameBody cw addr payload ++ be16 crc

/-! The receiver's side: the parts of a frame that begins at index 0 of a byte string (R68). -/

/-- `cw` = BE32(f[1..5)). -/
def frameCw (f : Bytes) : CtlWord := be32At f 1

/-- `a`, the number of address bytes of the frame that begins here. -/
def frameAddrSize (f : Bytes) : Nat := addrSize (frameCw f)

/-- The length field `N` = BE16(f[5+a..7+a)). -/
def frameLenField (f : Bytes) : BitVec 16 := be16At f (5 + frameAddrSize f)

/-- `L` = 9 + a + N, the length the frame declares. -/
def declaredLen (f : Bytes) : Nat := MIN_FRAME + frameAddrSize f + (frameLenField f).toNat

/-- The payload f[7+a..7+a+N). -/
def framePayload (f : Bytes) : Bytes :=
  slice f (7 + frameAddrSize f) (7 + frameAddrSize f + (frameLenField f).toNat)

/-- The received CRC, BE16(f[L-2..L)). -/
def receivedCrc (f : Bytes) : CrcWord := be16At f (declaredLen f - 2)

/-- The recomputed CRC, crc16(f[1..L-2)) (R67). -/
def computedCrc (f : Bytes) : CrcWord := crc16 (slice f 1 (declaredLen f - 2))

/-- All bytes of the frame that begins here are present: first the control word, then the length field, then the `L` bytes (R68 and steps
3, 4, 5 of spec/43_frame_extract.md R121). -/
def frameComplete (f : Bytes) : Bool :=
  decide (5 ≤ f.length) && decide (7 + frameAddrSize f ≤ f.length) && decide (declaredLen f ≤ f.length)

end Sys2Proof.Machine
end

