-- ==== Sys2Proof/Syntax.lean ====
section
/-! DEFINITION. The instructions: one constructor per row of spec/opcode_table.json, and the form in which the invoker presents one
(spec/30_encoding.md R60 to R62, R74, R75). -/

namespace Sys2Proof

/-- The rows of the opcode table: thirteen operations (R74), three reserved codes (R75), two frame formats (R61, R62). -/
inductive Instr where
  /-- CRC.CLR (R91). -/
  | crcClr
  /-- CRC.UPD `b` (R92). -/
  | crcUpd (b : Byte)
  /-- CRC.RD (R93). -/
  | crcRd
  /-- CRC.BLK `data` (R94). -/
  | crcBlk (data : Bytes)
  /-- BUILD (R100, R101). -/
  | build (category code : Byte) (payload : Bytes) (rs485 notify : Bool) (addr : Byte)
  /-- PARSE `raw` (R111). -/
  | parse (raw : Bytes)
  /-- EXTRACT (R121). -/
  | extract
  /-- BUF.PUSHB `b` (R135). -/
  | bufPushb (b : Byte)
  /-- BUF.PUSH `chunk` (R136). -/
  | bufPush (chunk : Bytes)
  /-- BUF.TRIM `n` (R137). -/
  | bufTrim (n : Nat)
  /-- BUF.CLEAR (R138). -/
  | bufClear
  /-- BUF.LEN (R139). -/
  | bufLen
  /-- FEED `chunk` (R140). -/
  | feed (chunk : Bytes)
  /-- The reserved operation code 0x0 (R75). -/
  | reserved0
  /-- The reserved operation code 0xE (R75). -/
  | reservedE
  /-- The reserved operation code 0xF (R75). -/
  | reservedF
  /-- A wire frame of format FRAME.PLAIN (R61): control word fields, payload, and the two CRC bytes as they stand on the wire. -/
  | framePlain (protoType protoVer category code : Byte) (payload : Bytes) (crc : CrcWord)
  /-- A wire frame of format FRAME.ADDR (R62): as FRAME.PLAIN, with the address byte. -/
  | frameAddr (protoType protoVer category code addr : Byte) (payload : Bytes) (crc : CrcWord)
  deriving DecidableEq, Repr

/-- The five operand shapes (R74). Operands are values, not bit fields: the spec packs nothing beside the operation code. -/
inductive Operands where
  /-- OP.NONE. -/
  | opNone
  /-- OP.BYTE. -/
  | opByte (b : Byte)
  /-- OP.BYTES: one byte string of any length. -/
  | opBytes (s : Bytes)
  /-- OP.NAT: one natural number. -/
  | opNat (n : Nat)
  /-- OP.BUILD: category and code must be given; the others may be left out (R100). -/
  | opBuild (category code : Byte) (payload : Option Bytes) (rs485 notify : Option Bool) (addr : Option Byte)
  deriving DecidableEq, Repr

/-- What the invoker presents: an operation code with its operands (R74), or a chunk received on the serial line (R160). -/
inductive Request where
  | op (code : BitVec 4) (operands : Operands)
  | chunk (bytes : Bytes)
  deriving DecidableEq, Repr

/-- Why the decoder reads no instruction from a request. -/
inductive Reject where
  /-- The operands have another shape than the operation code's (R74 names the shape; log 6). -/
  | operandShape (code : BitVec 4)
  /-- The chunk is empty or its first byte is not HEADER, so it is no frame (R61, R62). -/
  | noHeader
  /-- The chunk ends before the frame it begins does (R68). -/
  | incompleteFrame
  /-- The chunk goes on after the frame it begins (R68). -/
  | bytesAfterFrame
  deriving DecidableEq, Repr

end Sys2Proof
end

