-- ==== Sys2Proof/Machine/Operands.lean ====
section
/-! DEFINITION. Operand forms: the defaults of BUILD's operands (spec/41_frame_build.md R100) and the zero operands of each shape. -/

namespace Sys2Proof.Machine

/-- The `payload` operand of BUILD: empty when left out (R100). -/
def payloadOperand (p : Option Bytes) : Bytes := p.getD []

/-- The `rs485` and `notify` operands of BUILD: 0 when left out (R100, D28). -/
def flagOperand (f : Option Bool) : Bool := f.getD false

/-- The `addr` operand of BUILD: 0x00 when left out (R100, D6). -/
def addrOperand (a : Option Byte) : Byte := a.getD 0x00

/-- Operands of the shape an operation code takes (R74), with every value zero or empty: what "operand words of zeros" are for
operands that are values (log 15). -/
def zeroOperands (code : BitVec 4) : Operands :=
  match code.toNat with
  | 0x2 => .opByte 0
  | 0x8 => .opByte 0
  | 0x4 => .opBytes []
  | 0x6 => .opBytes []
  | 0x9 => .opBytes []
  | 0xD => .opBytes []
  | 0xA => .opNat 0
  | 0x5 => .opBuild 0 0 none none none none
  | _ => .opNone

end Sys2Proof.Machine
end

