-- ==== Sys2Proof/WellFormed.lean ====
section
/-! DEFINITION. Which instructions an encoding can carry. The operations take every operand (spec/30_encoding.md R74); a frame's fields must
fit its format (R61, R62, R66). -/

namespace Sys2Proof

/-- The payload count fits the 2-byte length field (R66). -/
def payloadFits (payload : Bytes) : Bool :=
  decide (payload.length ≤ 65535)

/-- Bit 13 of the control word, as the category byte holds it: bits 15:8 are the category, so it is the category's bit 5 (R63). -/
def categoryAddrBit (category : Byte) : Bool :=
  category.getLsbD 5

/-- The instruction has an encoding: a FRAME.PLAIN has control word bit 13 = 0, a FRAME.ADDR has it 1, and the length of either's payload
can be written. -/
def WellFormed : Instr → Bool
  | .crcClr => true
  | .crcUpd _ => true
  | .crcRd => true
  | .crcBlk _ => true
  | .build _ _ _ _ _ _ => true
  | .parse _ => true
  | .extract => true
  | .bufPushb _ => true
  | .bufPush _ => true
  | .bufTrim _ => true
  | .bufClear => true
  | .bufLen => true
  | .feed _ => true
  | .reserved0 => true
  | .reservedE => true
  | .reservedF => true
  | .framePlain _ _ category _ payload _ => payloadFits payload && !categoryAddrBit category
  | .frameAddr _ _ category _ _ payload _ => payloadFits payload && categoryAddrBit category

end Sys2Proof
end

