-- ==== Sys2Proof/Decode.lean ====
section
/-! DEFINITION. From a request to an instruction, and back (spec/30_encoding.md R60 to R62, R74, R75). Decoding is total: it answers an
instruction or names why there is none. -/

namespace Sys2Proof

open Sys2Proof.Machine

/-- The operation a code selects, with its operands (R74, R75). A reserved code is one before any operand is looked at (R154). -/
def decodeOp (code : BitVec 4) (operands : Operands) : Except Reject Instr :=
  match code.toNat, operands with
  | 0x0, _ => .ok .reserved0
  | 0x1, .opNone => .ok .crcClr
  | 0x2, .opByte b => .ok (.crcUpd b)
  | 0x3, .opNone => .ok .crcRd
  | 0x4, .opBytes data => .ok (.crcBlk data)
  | 0x5, .opBuild category code payload rs485 notify addr =>
    .ok (.build category code (payloadOperand payload) (flagOperand rs485) (flagOperand notify) (addrOperand addr))
  | 0x6, .opBytes raw => .ok (.parse raw)
  | 0x7, .opNone => .ok .extract
  | 0x8, .opByte b => .ok (.bufPushb b)
  | 0x9, .opBytes chunk => .ok (.bufPush chunk)
  | 0xA, .opNat n => .ok (.bufTrim n)
  | 0xB, .opNone => .ok .bufClear
  | 0xC, .opNone => .ok .bufLen
  | 0xD, .opBytes chunk => .ok (.feed chunk)
  | 0xE, _ => .ok .reservedE
  | 0xF, _ => .ok .reservedF
  | _, _ => .error (.operandShape code)

/-- The frame that fills a byte string exactly (R61, R62). The CRC field is read as it stands: whether it matches is for the
operations to test. -/
def decodeFrame (f : Bytes) : Except Reject Instr :=
  if f = [] ∨ byteAt f 0 ≠ HEADER then .error .noHeader
  else if !frameComplete f then .error .incompleteFrame
  else if declaredLen f < f.length then .error .bytesAfterFrame
  else if cwRs485 (frameCw f) then
    .ok (.frameAddr (byteAt f 1) (byteAt f 2) (byteAt f 3) (byteAt f 4) (byteAt f 5) (framePayload f) (receivedCrc f))
  else
    .ok (.framePlain (byteAt f 1) (byteAt f 2) (byteAt f 3) (byteAt f 4) (framePayload f) (receivedCrc f))

/-- The instruction a request presents. -/
def decode : Request → Except Reject Instr
  | .op code operands => decodeOp code operands
  | .chunk bytes => decodeFrame bytes

/-- The request that presents an instruction: the operation code of R74 or R75 with its operands, or the frame's bytes (R61, R62). -/
def encode : Instr → Request
  | .crcClr => .op 0x1 .opNone
  | .crcUpd b => .op 0x2 (.opByte b)
  | .crcRd => .op 0x3 .opNone
  | .crcBlk data => .op 0x4 (.opBytes data)
  | .build category code payload rs485 notify addr =>
    .op 0x5 (.opBuild category code (some payload) (some rs485) (some notify) (some addr))
  | .parse raw => .op 0x6 (.opBytes raw)
  | .extract => .op 0x7 .opNone
  | .bufPushb b => .op 0x8 (.opByte b)
  | .bufPush chunk => .op 0x9 (.opBytes chunk)
  | .bufTrim n => .op 0xA (.opNat n)
  | .bufClear => .op 0xB .opNone
  | .bufLen => .op 0xC .opNone
  | .feed chunk => .op 0xD (.opBytes chunk)
  | .reserved0 => .op 0x0 .opNone
  | .reservedE => .op 0xE .opNone
  | .reservedF => .op 0xF .opNone
  | .framePlain protoType protoVer category code payload crc =>
    .chunk (wireFrame (cwOfBytes protoType protoVer category code) 0 payload crc)
  | .frameAddr protoType protoVer category code addr payload crc =>
    .chunk (wireFrame (cwOfBytes protoType protoVer category code) addr payload crc)

/-! Words as spec/opcode_table.json numbers their bits (log 15). -/

/-- The `k` lowest bytes of a number, the least significant first. -/
def bytesOfWord (k w : Nat) : Bytes := (List.range k).map fun j => BitVec.ofNat 8 (w >>> (8 * j))

/-- The frame whose first bytes are those of `w`, first byte least significant, and whose further bytes, up to the length it declares,
are zero. -/
def frameOfWord (w : Nat) : Bytes := bytesOfWord (declaredLen (bytesOfWord 10 w)) w

/-- The request that a table word stands for. A word below 0x10 is an operation code with zero operands. A longer word is a
frame: its first byte is the least significant one, or, in the FRAME rows' own numbering of their 40 bits ("byte 0 most significant"),
the most significant one. -/
def requestOfWord (nbits w : Nat) : Request :=
  let v := w % 2 ^ nbits
  if v < 16 then .op (BitVec.ofNat 4 v) (zeroOperands (BitVec.ofNat 4 v))
  else if byteAt (bytesOfWord 1 v) 0 = HEADER then .chunk (frameOfWord v)
  else if nbits = 40 ∧ v >>> 32 = 0x5A then
    .chunk (let f := (bytesOfWord 5 v).reverse ++ List.replicate 5 0; f.take (declaredLen f))
  else .chunk (bytesOfWord (nbits / 8) v)

/-- The instruction the decoder reads from a table word (a name the host fixes). -/
def decodeTableWord (nbits w : Nat) : Option Instr :=
  match decode (requestOfWord nbits w) with
  | .ok i => some i
  | .error _ => none

end Sys2Proof
end

