-- ==== Sys2Proof/Machine/State.lean ====
section
/-! DEFINITION. The state of one instance (spec/10_state.md R20), what a transaction hands back (spec/30_encoding.md R73, R74), the errors
(spec/60_exceptions.md R150), and the state after reset (R31, R170). -/

namespace Sys2Proof.Machine

/-- The Frame record that PARSE returns and that EXTRACT and FEED return a list of (R73). -/
structure Frame where
  cw : CtlWord
  protoType : Byte
  protoVer : Byte
  rs485 : Bool
  notify : Bool
  category : Byte
  code : Byte
  addr : Option Byte
  length : BitVec 16
  payload : Bytes
  crc : CrcWord
  frameLen : Nat
  deriving DecidableEq, Repr

/-- The errors an operation can return, each with its information (R150). -/
inductive BlockError where
  | tooShort (len : Nat)
  | badHeader (first : Byte)
  | truncated (declared len : Nat)
  | crcMismatch (received computed : CrcWord)
  | payloadTooLong (len : Nat)
  | trimRange (n len : Nat)
  | illegalOp (op : BitVec 4)
  deriving DecidableEq, Repr

/-- What a transaction hands back to the invoker: a result of one of the kinds of R74's table, or an error (R26, R150). -/
inductive Reply where
  /-- `ok`: no result. -/
  | ok
  /-- A 16-bit value: CRC.RD, CRC.BLK. -/
  | value (v : CrcWord)
  /-- A byte string: BUILD. -/
  | bytes (f : Bytes)
  /-- A Frame record: PARSE. -/
  | frame (f : Frame)
  /-- EXTRACT's three results. -/
  | extracted (frames : List Frame) (consumed discards : Nat)
  /-- An accepted count: BUF.PUSHB, BUF.PUSH. -/
  | accepted (count : Nat)
  /-- BUF.LEN's two results. -/
  | level (len : Nat) (ovf : Bool)
  /-- FEED's three results. -/
  | fed (frames : List Frame) (discards accepted : Nat)
  /-- An error. -/
  | error (e : BlockError)
  deriving DecidableEq, Repr

/-- What can come to the block from outside: a transaction, or a reset, which happens between operations only (R170). -/
inductive Input where
  | request (r : Request)
  | resetEvent
  deriving DecidableEq, Repr

/-- The reassembly buffer, the block's one stored memory (R40): its bytes from the oldest to the newest, index 0 the oldest (R22, R41).
R41 allows a list of bytes; such a list has one form only, so equal buffers are equal data (log 5). -/
abbrev Memory := Bytes

/-- The buffer holds at most `CAP` bytes (R20, R22). -/
def Memory.wf (cap : Option Nat) (m : Memory) : Bool :=
  match cap with
  | none => true
  | some c => decide (m.length ≤ c)

/-- The byte at an index of the buffer; none at or beyond its length (R40, R46). -/
def Memory.read (m : Memory) (i : Nat) : Option Byte := m[i]?

/-- One instance of the block. -/
structure State where
  /-- The instance's constants (R27): parameters, which nothing changes (log 3). -/
  cfg : Config
  /-- `CRC`, the accumulator of the CRC operations (R21). -/
  crc : CrcWord
  /-- `BUF`, the reassembly buffer (R22). -/
  buf : Memory
  /-- `OVF`, the sticky overflow flag (R23). -/
  ovf : Bool
  /-- The inputs the block has not taken yet, oldest first: the model's own field (log 1). -/
  inputs : List Input
  /-- What the last transaction handed back: the model's own field (log 2). -/
  reply : Option Reply
  deriving DecidableEq, Repr

/-- Why the machine could stop with a fault: never. An operation that fails returns an error and the block is at once ready for the next
one (R151, R156), so no one raises a fault; an empty type is safe and exact (log 11). -/
inductive Fault where
  deriving DecidableEq, Repr

/-- Why a request has no meaning. -/
inductive Refusal where
  /-- Raised by an arm of `exec` whose instruction has no meaning yet; no arm does. Safe: the model stops where the block goes on. -/
  | notModelled (mnemonic : String)
  /-- Raised by `step` for a request whose operands have another shape than its operation code's: R74 says which operands each
  operation is passed and nothing of any others (log 6). Safe: the model stops. -/
  | malformedRequest (why : Reject)
  deriving DecidableEq, Repr

/-- The machine right after reset (R31, R170): `CRC` = 0x0000, `BUF` empty, `OVF` = 0; the constants are no reset's business (R171, log 3);
nothing waits and nothing has been answered (log 1, log 2). -/
def State.reset : State :=
  { cfg := Config.fixed, crc := 0x0000, buf := [], ovf := false, inputs := [], reply := none }

end Sys2Proof.Machine
end

