-- ==== Sys2Proof/Machine/Flags.lean ====
section
/-! DEFINITION. The one flag, `OVF` (spec/10_state.md R23, R26): how much of an offered chunk fits, and when the flag is set. No operation
has a zero, carry, sign or overflow condition code (R26). -/

namespace Sys2Proof.Machine

/-- How many bytes of a chunk of `len` bytes a buffer of `fill` bytes takes: all of them when CAP is unbounded, else
min(len, CAP - fill), and none when the buffer is full (R135, R136; log 16). -/
def acceptedCount (cap : Option Nat) (fill len : Nat) : Nat :=
  match cap with
  | none => len
  | some c => min len (c - fill)

/-- `OVF` after a chunk of `len` bytes was offered: set when some byte was dropped, otherwise as it was (R23, R136). -/
def ovfAfterPush (cap : Option Nat) (fill len : Nat) (ovf : Bool) : Bool :=
  ovf || decide (acceptedCount cap fill len < len)

/-- `OVF` after BUF.CLEAR or reset (R23, R138). -/
def ovfAfterClear : Bool := false

end Sys2Proof.Machine
end

