-- ==== Sys2Proof/Machine/Ops.lean ====
section
/-! DEFINITION. The shared operations over the state: answering, raising an error, the buffer's three writes (spec/00_scope.md R15), the
CRC register, taking an input, reset. -/

namespace Sys2Proof.Machine

/-- `return v` (R15): the operation ends with a result. -/
def State.respond (s : State) (r : Reply) : State := { s with reply := some r }

/-- `raise e` (R15, R151), the one way an operation fails: the error goes back to the invoker and no state of the block changes. There is no
saved program counter, cause, mode, vector or handler to write, and nothing to return from (R151, R156). -/
def State.raise (s : State) (e : BlockError) : State := s.respond (.error e)

/-- `CRC <- v` (R21). -/
def State.setCrc (s : State) (v : CrcWord) : State := { s with crc := v }

/-- Append at the tail of `BUF` what fits of a chunk and set `OVF` when bytes were dropped (R136). The bytes kept are the first ones. -/
def State.push (s : State) (chunk : Bytes) : State :=
  { s with
    buf := s.buf ++ chunk.take (acceptedCount s.cfg.cap s.buf.length chunk.length)
    ovf := ovfAfterPush s.cfg.cap s.buf.length chunk.length s.ovf }

/-- Remove the `n` oldest bytes of `BUF` (R15, R137). -/
def State.dropOldest (s : State) (n : Nat) : State := { s with buf := s.buf.drop n }

/-- `BUF <- []; OVF <- 0` (R138). -/
def State.clearBuf (s : State) : State := { s with buf := [], ovf := ovfAfterClear }

/-- Reset (R170): `CRC`, `BUF` and `OVF` at their reset values, the constants as they were (R171). What waits in `inputs` is the invoker's
and stays; the last reply is gone (log 4). -/
def State.takeReset (s : State) : State := { s.clearBuf with crc := 0x0000, reply := none }

/-- The next input and the state without it; none when nothing waits. This is the block's only fetch: it has no program (R25, R53, log 1). -/
def State.takeInput (s : State) : Option (Input × State) :=
  match s.inputs with
  | [] => none
  | x :: rest => some (x, { s with inputs := rest })

/-- Present a request as the very next input. -/
def State.present (s : State) (r : Request) : State := { s with inputs := .request r :: s.inputs }

end Sys2Proof.Machine
end

