-- ==== Sys2Proof/Machine/Parse.lean ====
section
/-! DEFINITION. PARSE (spec/42_frame_parse.md R110 to R115) and the Frame record (spec/30_encoding.md R73). -/

namespace Sys2Proof.Machine

/-- The Frame record of the frame that begins at index 0 of a byte string (R65, R73, R111). -/
def frameRecord (f : Bytes) : Frame :=
  let cw := frameCw f
  { cw := cw
    protoType := cwProtoType cw
    protoVer := cwProtoVer cw
    rs485 := cwRs485 cw
    notify := cwNotify cw
    category := cwCategory cw
    code := cwCode cw
    addr := if cwRs485 cw then some (byteAt f 5) else none
    length := frameLenField f
    payload := framePayload f
    crc := receivedCrc f
    frameLen := declaredLen f }

/-- `parseFrame(raw)`: the four tests in their order (R112), then the record. Bytes after the frame are ignored (R113); nothing else is
tested (R114). -/
def parseFrame (raw : Bytes) : Except BlockError Frame :=
  if raw.length < MIN_FRAME then .error (.tooShort raw.length)
  else if byteAt raw 0 ≠ HEADER then .error (.badHeader (byteAt raw 0))
  else if raw.length < declaredLen raw then .error (.truncated (declaredLen raw) raw.length)
  else if receivedCrc raw ≠ computedCrc raw then .error (.crcMismatch (receivedCrc raw) (computedCrc raw))
  else .ok (frameRecord raw)

/-- PARSE `raw` (R111): reads and writes no state. -/
def execParse (raw : Bytes) (s : State) : Host.Outcome State Fault Refusal :=
  .next <|
    match parseFrame raw with
    | .ok f => s.respond (.frame f)
    | .error e => s.raise e

end Sys2Proof.Machine
end

