-- ==== Sys2Proof/Machine/Extract.lean ====
section
/-! DEFINITION. EXTRACT: the scan of the buffer (spec/43_frame_extract.md R120 to R128). -/

namespace Sys2Proof.Machine

/-- What the scan finds at a position (steps 2 to 7 of R121). -/
inductive Candidate where
  /-- Nothing is left there, or the candidate's bytes are not all there: the scan stops (steps 2 to 5, R123). -/
  | stop
  /-- A complete candidate whose CRC matches (step 6, R125). -/
  | accept (f : Frame)
  /-- A complete candidate whose CRC does not match (step 7, R124). -/
  | discard
  deriving DecidableEq, Repr

/-- The candidate at the head of the bytes from the cursor on (R121). -/
def candidate (t : Bytes) : Candidate :=
  if !frameComplete t then .stop
  else if receivedCrc t = computedCrc t then .accept (frameRecord (t.take (declaredLen t)))
  else .discard

/-- The scan's transient values (R29): the cursor, the frames found so far, the discard count. -/
structure Scan where
  i : Nat
  frames : List Frame
  discards : Nat
  deriving DecidableEq, Repr

/-- The scan as it begins in every EXTRACT (R29, R121). -/
def Scan.start : Scan := { i := 0, frames := [], discards := 0 }

/-- Step 1 of R121: the first index at or after `i` that holds the header byte, or the end of the buffer. -/
def skipToHeader (buf : Bytes) (i : Nat) : Nat :=
  i + ((buf.drop i).takeWhile fun b => b != HEADER).length

/-- One turn of R121's outer loop: the new values, and whether the loop goes on. -/
def Scan.turn (buf : Bytes) (c : Scan) : Scan × Bool :=
  let i := skipToHeader buf c.i
  match candidate (buf.drop i) with
  | .stop => ({ c with i := i }, false)
  | .accept f => ({ c with i := i + f.frameLen, frames := c.frames ++ [f] }, true)
  | .discard => ({ c with i := i + 1, discards := c.discards + 1 }, true)

/-- The outer loop, at most `fuel` turns of it. -/
def Scan.loop (buf : Bytes) : Nat → Scan → Scan
  | 0, c => c
  | fuel + 1, c =>
    match c.turn buf with
    | (c', true) => Scan.loop buf fuel c'
    | (c', false) => c'

/-- `extractValidFrames(buffer)` (R121). Each turn that goes on moves the cursor by at least 1 and never past the end (R128), so one turn
more than the buffer has bytes is never used up (log 13; `Laws/Extract.lean` proves it). -/
def extractFrames (buf : Bytes) : Scan := Scan.loop buf (buf.length + 1) Scan.start

/-- EXTRACT (R120, R121): reads `BUF`, writes no state. -/
def execExtract (s : State) : Host.Outcome State Fault Refusal :=
  let r := extractFrames s.buf
  .next (s.respond (.extracted r.frames r.i r.discards))

end Sys2Proof.Machine
end

