-- ==== Sys2Proof/Machine/Buffer.lean ====
section
/-! DEFINITION. The buffer operations (spec/44_reassembly_buffer.md R135 to R140). -/

namespace Sys2Proof.Machine

/-- BUF.PUSHB `b` (R135). -/
def execBufPushb (b : Byte) (s : State) : Host.Outcome State Fault Refusal :=
  .next ((s.push [b]).respond (.accepted (acceptedCount s.cfg.cap s.buf.length 1)))

/-- BUF.PUSH `chunk` (R136). -/
def execBufPush (chunk : Bytes) (s : State) : Host.Outcome State Fault Refusal :=
  .next ((s.push chunk).respond (.accepted (acceptedCount s.cfg.cap s.buf.length chunk.length)))

/-- BUF.TRIM `n` (R137). -/
def execBufTrim (n : Nat) (s : State) : Host.Outcome State Fault Refusal :=
  .next (if n > s.buf.length then s.raise (.trimRange n s.buf.length) else (s.dropOldest n).respond .ok)

/-- BUF.CLEAR (R138). -/
def execBufClear (s : State) : Host.Outcome State Fault Refusal :=
  .next (s.clearBuf.respond .ok)

/-- BUF.LEN (R139). -/
def execBufLen (s : State) : Host.Outcome State Fault Refusal :=
  .next (s.respond (.level s.buf.length s.ovf))

/-- One turn of the worker loop (R140): push the chunk, extract, trim by the consumed count, and answer the frames, the discards and the
accepted count. -/
def State.feedChunk (s : State) (chunk : Bytes) : State :=
  let k := acceptedCount s.cfg.cap s.buf.length chunk.length
  let pushed := s.push chunk
  let r := extractFrames pushed.buf
  (pushed.dropOldest r.i).respond (.fed r.frames r.discards k)

/-- FEED `chunk` (R140). -/
def execFeed (chunk : Bytes) (s : State) : Host.Outcome State Fault Refusal :=
  .next (s.feedChunk chunk)

end Sys2Proof.Machine
end

