-- ==== Sys2Proof/Machine/Build.lean ====
section
/-! DEFINITION. BUILD (spec/41_frame_build.md R100 to R103). -/

namespace Sys2Proof.Machine

/-- The frame BUILD assembles, or its one error (R101, R102). The address byte is present when bit 13 of the assembled control word is
1 (D5), and the CRC is the pure function's (R21). -/
def buildFrame (cfg : Config) (category code : Byte) (payload : Bytes) (rs485 notify : Bool) (addr : Byte) :
    Except BlockError Bytes :=
  if payload.length > MAX_PAYLOAD then .error (.payloadTooLong payload.length)
  else
    let cw := assembleCw cfg category code rs485 notify
    .ok (wireFrame cw addr payload (crc16 (frameBody cw addr payload)))

/-- BUILD (R101): reads and writes no state. -/
def execBuild (category code : Byte) (payload : Bytes) (rs485 notify : Bool) (addr : Byte) (s : State) :
    Host.Outcome State Fault Refusal :=
  .next <|
    match buildFrame s.cfg category code payload rs485 notify addr with
    | .ok f => s.respond (.bytes f)
    | .error e => s.raise e

end Sys2Proof.Machine
end

