-- ==== Sys2Proof/Machine/Crc.lean ====
section
/-! DEFINITION. The CRC operations (spec/40_crc.md R91 to R94). -/

namespace Sys2Proof.Machine

/-- CRC.CLR (R91). -/
def execCrcClr (s : State) : Host.Outcome State Fault Refusal :=
  .next ((s.setCrc INIT).respond .ok)

/-- CRC.UPD `b` (R92). -/
def execCrcUpd (b : Byte) (s : State) : Host.Outcome State Fault Refusal :=
  .next ((s.setCrc (crcStep s.crc b)).respond .ok)

/-- CRC.RD (R93): the value unchanged, with no final XOR, no reflection, no byte swap. -/
def execCrcRd (s : State) : Host.Outcome State Fault Refusal :=
  .next (s.respond (.value s.crc))

/-- CRC.BLK `data` (R94). -/
def execCrcBlk (data : Bytes) (s : State) : Host.Outcome State Fault Refusal :=
  .next ((s.setCrc (crc16 data)).respond (.value (crc16 data)))

end Sys2Proof.Machine
end

