-- ==== Sys2Proof/Machine/Line.lean ====
section
/-! DEFINITION. The table's two frame formats as instructions, and chunks from the line that are no frame. A frame is data; what happens to
it in the block is that the host hands it over as a received chunk and FEED takes it in (spec/60_exceptions.md R160,
spec/70_reset_and_hazards.md R173; DEDUCED, log 7 and log 8). -/

namespace Sys2Proof.Machine

/-- A frame of format FRAME.PLAIN arrives as one chunk (R61, R173). -/
def execFramePlain (protoType protoVer category code : Byte) (payload : Bytes) (crc : CrcWord) (s : State) :
    Host.Outcome State Fault Refusal :=
  .next (s.feedChunk (wireFrame (cwOfBytes protoType protoVer category code) 0 payload crc))

/-- A frame of format FRAME.ADDR arrives as one chunk (R62, R173). -/
def execFrameAddr (protoType protoVer category code addr : Byte) (payload : Bytes) (crc : CrcWord) (s : State) :
    Host.Outcome State Fault Refusal :=
  .next (s.feedChunk (wireFrame (cwOfBytes protoType protoVer category code) addr payload crc))

/-- A request from which no instruction is read. A chunk that is not exactly one frame is fed like any other: the stream "can fragment
or concatenate frames arbitrarily" (R45; log 8). Operands of the wrong shape are refused (log 6). -/
def takeRejected (why : Reject) (r : Request) (s : State) : Host.Outcome State Fault Refusal :=
  match r with
  | .chunk bytes => .next (s.feedChunk bytes)
  | .op _ _ => .refused (.malformedRequest why)

end Sys2Proof.Machine
end

