-- ==== Sys2Proof/Machine/Reserved.lean ====
section
/-! DEFINITION. The reserved operation codes (spec/30_encoding.md R75): selecting one raises IllegalOp and changes no state. -/

namespace Sys2Proof.Machine

/-- Operation code 0x0 (R75, R150). -/
def execReserved0 (s : State) : Host.Outcome State Fault Refusal := .next (s.raise (.illegalOp 0x0))

/-- Operation code 0xE (R75, R150). -/
def execReservedE (s : State) : Host.Outcome State Fault Refusal := .next (s.raise (.illegalOp 0xE))

/-- Operation code 0xF (R75, R150). -/
def execReservedF (s : State) : Host.Outcome State Fault Refusal := .next (s.raise (.illegalOp 0xF))

end Sys2Proof.Machine
end

