-- ==== Sys2Proof/Machine/Dispatch.lean ====
section
/-! DEFINITION. One arm per instruction. -/

namespace Sys2Proof.Machine

def exec (i : Instr) (s : State) : Host.Outcome State Fault Refusal :=
  match i with
  | .crcClr => Sys2Proof.Machine.execCrcClr s
  | .crcUpd b => Sys2Proof.Machine.execCrcUpd b s
  | .crcRd => Sys2Proof.Machine.execCrcRd s
  | .crcBlk data => Sys2Proof.Machine.execCrcBlk data s
  | .build category code payload rs485 notify addr => Sys2Proof.Machine.execBuild category code payload rs485 notify addr s
  | .parse raw => Sys2Proof.Machine.execParse raw s
  | .extract => Sys2Proof.Machine.execExtract s
  | .bufPushb b => Sys2Proof.Machine.execBufPushb b s
  | .bufPush chunk => Sys2Proof.Machine.execBufPush chunk s
  | .bufTrim n => Sys2Proof.Machine.execBufTrim n s
  | .bufClear => Sys2Proof.Machine.execBufClear s
  | .bufLen => Sys2Proof.Machine.execBufLen s
  | .feed chunk => Sys2Proof.Machine.execFeed chunk s
  | .reserved0 => Sys2Proof.Machine.execReserved0 s
  | .reservedE => Sys2Proof.Machine.execReservedE s
  | .reservedF => Sys2Proof.Machine.execReservedF s
  | .framePlain protoType protoVer category code payload crc => Sys2Proof.Machine.execFramePlain protoType protoVer category code payload crc s
  | .frameAddr protoType protoVer category code addr payload crc => Sys2Proof.Machine.execFrameAddr protoType protoVer category code addr payload crc s

end Sys2Proof.Machine
end

