-- ==== Sys2Proof/Machine/Step.lean ====
section
/-! DEFINITION. One step: take the oldest waiting input, if any, and do the whole of it (spec/20_memory.md R47, R50). -/

namespace Sys2Proof.Machine

/-- One step of the machine. With nothing waiting the block does nothing: it starts nothing on its own (R155; log 10). -/
def step (s : State) : Host.Outcome State Fault Refusal :=
  match s.takeInput with
  | none => .next s
  | some (.resetEvent, t) => .next t.takeReset
  | some (.request r, t) =>
    match decode r with
    | .ok i => exec i t
    | .error why => takeRejected why r t

/-- `s` with the instruction of a table word as its very next input, before any that wait (a name the host fixes; log 1, log 15). -/
def State.withFetchWord (s : State) (nbits w : Nat) : State := s.present (requestOfWord nbits w)

end Sys2Proof.Machine
end

