-- ==== Sys2Proof/Machine/Instances.lean ====
section
/-! DEFINITION. Several instances of the block side by side (spec/00_scope.md R12, spec/60_exceptions.md R161): they share nothing, so a
system is the list of their states and a step of one is a step of that one alone (log 12). -/

namespace Sys2Proof.Machine

/-- Instances standing side by side. They have no identifiers of their own (R161): a place in the list is the invoker's handle. -/
abbrev System := List State

/-- A step of the instance at place `k`; the system is left as it was when there is none or when it stops. -/
def System.stepAt (k : Nat) (sys : System) : System :=
  match sys[k]? with
  | none => sys
  | some s =>
    match step s with
    | .next t => sys.set k t
    | .fault _ => sys
    | .refused _ => sys

end Sys2Proof.Machine
end

