-- ==== Sys2Proof/Machine/Text.lean ====
section
/-! DEFINITION. The written form of an operation (spec/30_encoding.md R76), the table's mnemonics (R74) and the numbers of the errors
(spec/60_exceptions.md R150). -/

namespace Sys2Proof.Machine

/-- The row's mnemonic in spec/opcode_table.json. -/
def mnemonic : Instr → String
  | .crcClr => "CRC.CLR"
  | .crcUpd _ => "CRC.UPD"
  | .crcRd => "CRC.RD"
  | .crcBlk _ => "CRC.BLK"
  | .build _ _ _ _ _ _ => "BUILD"
  | .parse _ => "PARSE"
  | .extract => "EXTRACT"
  | .bufPushb _ => "BUF.PUSHB"
  | .bufPush _ => "BUF.PUSH"
  | .bufTrim _ => "BUF.TRIM"
  | .bufClear => "BUF.CLEAR"
  | .bufLen => "BUF.LEN"
  | .feed _ => "FEED"
  | .reserved0 => "RESERVED.0"
  | .reservedE => "RESERVED.E"
  | .reservedF => "RESERVED.F"
  | .framePlain _ _ _ _ _ _ => "FRAME.PLAIN"
  | .frameAddr _ _ _ _ _ _ _ => "FRAME.ADDR"

/-- The number of an error (R150). -/
def BlockError.number : BlockError → Byte
  | .tooShort _ => 0x01
  | .badHeader _ => 0x02
  | .truncated _ _ => 0x03
  | .crcMismatch _ _ => 0x04
  | .payloadTooLong _ => 0x10
  | .trimRange _ _ => 0x20
  | .illegalOp _ => 0x7F

/-- One hexadecimal digit, in capitals as R76 writes them. -/
def hexDigit (d : Nat) : Char := ['0', '1', '2', '3', '4', '5', '6', '7', '8', '9', 'A', 'B', 'C', 'D', 'E', 'F'].getD d '0'

/-- Two hexadecimal digits. -/
def hexByte (b : Byte) : List Char := [hexDigit (b.toNat / 16), hexDigit (b.toNat % 16)]

/-- A byte operand: `0x5A`. -/
def byteText (b : Byte) : List Char := '0' :: 'x' :: hexByte b

/-- A byte string in braces, bytes separated by one space (R76). The braces are characters 123 and 125. -/
def bytesText (s : Bytes) : List Char :=
  Char.ofNat 123 :: ((s.map hexByte).intersperse [' ']).flatten ++ [Char.ofNat 125]

/-- A bit operand. -/
def bitText (b : Bool) : List Char := if b then ['1'] else ['0']

/-- A named operand, `name=value` (R76). -/
def named (name : String) (value : List Char) : List Char := name.toList ++ '=' :: value

/-- The operands as R76 writes them: BUILD's are named, the others bare. A frame format has no written form of its own; its fields are
named in the order of the wire. -/
def operandTexts : Instr → List (List Char)
  | .crcUpd b => [byteText b]
  | .bufPushb b => [byteText b]
  | .crcBlk s => [bytesText s]
  | .parse s => [bytesText s]
  | .bufPush s => [bytesText s]
  | .feed s => [bytesText s]
  | .bufTrim n => [Nat.toDigits 10 n]
  | .build category code payload rs485 notify addr =>
    [named "category" (byteText category), named "code" (byteText code), named "payload" (bytesText payload),
     named "rs485" (bitText rs485), named "notify" (bitText notify), named "addr" (byteText addr)]
  | .framePlain protoType protoVer category code payload crc =>
    [named "proto_type" (byteText protoType), named "proto_ver" (byteText protoVer), named "category" (byteText category),
     named "code" (byteText code), named "payload" (bytesText payload),
     named "crc" (bytesText [crc.extractLsb' 8 8, crc.extractLsb' 0 8])]
  | .frameAddr protoType protoVer category code addr payload crc =>
    [named "proto_type" (byteText protoType), named "proto_ver" (byteText protoVer), named "category" (byteText category),
     named "code" (byteText code), named "addr" (byteText addr), named "payload" (bytesText payload),
     named "crc" (bytesText [crc.extractLsb' 8 8, crc.extractLsb' 0 8])]
  | .crcClr => []
  | .crcRd => []
  | .extract => []
  | .bufClear => []
  | .bufLen => []
  | .reserved0 => []
  | .reservedE => []
  | .reservedF => []

/-- The written form: the mnemonic, then the operands separated by commas (R76). -/
def written (i : Instr) : List Char :=
  (mnemonic i).toList ++ (if (operandTexts i).isEmpty then [] else ' ' :: ((operandTexts i).intersperse [',', ' ']).flatten)

end Sys2Proof.Machine
end

