-- ==== Sys2Proof/Safety.lean ====
section
/-! DEFINITION. The terms that claims use: what a safe state is, runs of several operations, which row may write which piece of state
(spec/10_state.md R20), when a buffer is stuck (spec/70_reset_and_hazards.md R182). -/

namespace Sys2Proof.Machine

/-- The invariant of an instance: the buffer holds at most `CAP` bytes (R20, R22). -/
def State.wf (s : State) : Bool := Memory.wf s.cfg.cap s.buf

/-- No byte has been dropped since the last BUF.CLEAR or reset: `OVF` as a fault bit (R153). -/
def State.lossless (s : State) : Bool := !s.ovf

/-- A chunk of `len` bytes fits into the buffer whole. -/
def State.hasRoom (s : State) (len : Nat) : Bool :=
  match s.cfg.cap with
  | none => true
  | some c => decide (s.buf.length + len ≤ c)

/-- Operations one after another, each from the state the one before left (R50). -/
def execAll : List Instr → State → Host.Outcome State Fault Refusal
  | [], s => .next s
  | i :: rest, s =>
    match exec i s with
    | .next t => execAll rest t
    | .fault r => .fault r
    | .refused r => .refused r

/-- FEEDs one after another: the frames of all of them joined end to end, the sum of their discards, and the last state (R144). -/
def runFeeds : List Bytes → State → Option (List Frame × Nat × State)
  | [], s => some ([], 0, s)
  | chunk :: rest, s =>
    match exec (.feed chunk) s with
    | .next t =>
      match t.reply with
      | some (.fed frames discards _) =>
        match runFeeds rest t with
        | some (frames', discards', u) => some (frames ++ frames', discards + discards', u)
        | none => none
      | _ => none
    | _ => none

/-- The rows that may write `CRC` (R20). -/
def writesCrc : Instr → Bool
  | .crcClr => true
  | .crcUpd _ => true
  | .crcBlk _ => true
  | .crcRd => false
  | .build _ _ _ _ _ _ => false
  | .parse _ => false
  | .extract => false
  | .bufPushb _ => false
  | .bufPush _ => false
  | .bufTrim _ => false
  | .bufClear => false
  | .bufLen => false
  | .feed _ => false
  | .reserved0 => false
  | .reservedE => false
  | .reservedF => false
  | .framePlain _ _ _ _ _ _ => false
  | .frameAddr _ _ _ _ _ _ _ => false

/-- The rows that may write `BUF` (R20); a frame that arrives is fed (log 7). -/
def writesBuf : Instr → Bool
  | .bufPushb _ => true
  | .bufPush _ => true
  | .bufTrim _ => true
  | .bufClear => true
  | .feed _ => true
  | .framePlain _ _ _ _ _ _ => true
  | .frameAddr _ _ _ _ _ _ _ => true
  | .crcClr => false
  | .crcUpd _ => false
  | .crcRd => false
  | .crcBlk _ => false
  | .build _ _ _ _ _ _ => false
  | .parse _ => false
  | .extract => false
  | .bufLen => false
  | .reserved0 => false
  | .reservedE => false
  | .reservedF => false

/-- The rows that may remove bytes from `BUF` (R22); a frame that arrives is fed (log 7). -/
def removesBytes : Instr → Bool
  | .bufTrim _ => true
  | .bufClear => true
  | .feed _ => true
  | .framePlain _ _ _ _ _ _ => true
  | .frameAddr _ _ _ _ _ _ _ => true
  | .bufPushb _ => false
  | .bufPush _ => false
  | .crcClr => false
  | .crcUpd _ => false
  | .crcRd => false
  | .crcBlk _ => false
  | .build _ _ _ _ _ _ => false
  | .parse _ => false
  | .extract => false
  | .bufLen => false
  | .reserved0 => false
  | .reservedE => false
  | .reservedF => false

/-- The bytes an instruction offers to the tail of the buffer (R135, R136, R140); a frame that arrives is offered whole (log 7). -/
def offered : Instr → Bytes
  | .bufPushb b => [b]
  | .bufPush chunk => chunk
  | .feed chunk => chunk
  | .framePlain protoType protoVer category code payload crc =>
    wireFrame (cwOfBytes protoType protoVer category code) 0 payload crc
  | .frameAddr protoType protoVer category code addr payload crc =>
    wireFrame (cwOfBytes protoType protoVer category code) addr payload crc
  | .bufTrim _ => []
  | .bufClear => []
  | .crcClr => []
  | .crcUpd _ => []
  | .crcRd => []
  | .crcBlk _ => []
  | .build _ _ _ _ _ _ => []
  | .parse _ => []
  | .extract => []
  | .bufLen => []
  | .reserved0 => []
  | .reservedE => []
  | .reservedF => []

/-- The bytes of those that enter the buffer: the first ones, as many as fit (R136). -/
def accepted (i : Instr) (s : State) : Bytes :=
  (offered i).take (acceptedCount s.cfg.cap s.buf.length (offered i).length)

/-- How many of the oldest bytes an instruction removes, once what it offers has entered: what BUF.TRIM is told to remove if it can, all for
BUF.CLEAR, the consumed count for FEED (R137, R138, R140); a frame that arrives is fed (log 7). -/
def removedCount (i : Instr) (s : State) : Nat :=
  match i with
  | .bufTrim n => if n ≤ s.buf.length then n else 0
  | .bufClear => s.buf.length
  | .feed _ => (extractFrames (s.buf ++ accepted i s)).i
  | .framePlain _ _ _ _ _ _ => (extractFrames (s.buf ++ accepted i s)).i
  | .frameAddr _ _ _ _ _ _ _ => (extractFrames (s.buf ++ accepted i s)).i
  | .bufPushb _ => 0
  | .bufPush _ => 0
  | .crcClr => 0
  | .crcUpd _ => 0
  | .crcRd => 0
  | .crcBlk _ => 0
  | .build _ _ _ _ _ _ => 0
  | .parse _ => 0
  | .extract => 0
  | .bufLen => 0
  | .reserved0 => 0
  | .reservedE => 0
  | .reservedF => 0

/-- The bytes that leave the buffer at its head (R22). -/
def removed (i : Instr) (s : State) : Bytes := (s.buf ++ accepted i s).take (removedCount i s)

/-- Operations one after another, with all the bytes that entered the buffer and all that left it, each in the order of the operations, and
the last state (R52). -/
def runStream : List Instr → State → Option (Bytes × Bytes × State)
  | [], s => some ([], [], s)
  | i :: rest, s =>
    match exec i s with
    | .next t =>
      match runStream rest t with
      | some (entered, left, u) => some (accepted i s ++ entered, removed i s ++ left, u)
      | none => none
    | _ => none

/-- The rows that may write `OVF` (R20); a frame that arrives is fed (log 7). -/
def writesOvf : Instr → Bool
  | .bufPushb _ => true
  | .bufPush _ => true
  | .bufClear => true
  | .feed _ => true
  | .framePlain _ _ _ _ _ _ => true
  | .frameAddr _ _ _ _ _ _ _ => true
  | .bufTrim _ => false
  | .crcClr => false
  | .crcUpd _ => false
  | .crcRd => false
  | .crcBlk _ => false
  | .build _ _ _ _ _ _ => false
  | .parse _ => false
  | .extract => false
  | .bufLen => false
  | .reserved0 => false
  | .reservedE => false
  | .reservedF => false

/-- The operations that change no state of the block (R48). -/
def readOnly : Instr → Bool
  | .crcRd => true
  | .bufLen => true
  | .parse _ => true
  | .build _ _ _ _ _ _ => true
  | .extract => true
  | .crcClr => false
  | .crcUpd _ => false
  | .crcBlk _ => false
  | .bufPushb _ => false
  | .bufPush _ => false
  | .bufTrim _ => false
  | .bufClear => false
  | .feed _ => false
  | .reserved0 => false
  | .reservedE => false
  | .reservedF => false
  | .framePlain _ _ _ _ _ _ => false
  | .frameAddr _ _ _ _ _ _ _ => false

/-- The row that an error can come from (R150). -/
def raisedBy : BlockError → Instr → Bool
  | .tooShort _, .parse _ => true
  | .badHeader _, .parse _ => true
  | .truncated _ _, .parse _ => true
  | .crcMismatch _ _, .parse _ => true
  | .payloadTooLong _, .build _ _ _ _ _ _ => true
  | .trimRange _ _, .bufTrim _ => true
  | .illegalOp op, .reserved0 => op == 0x0
  | .illegalOp op, .reservedE => op == 0xE
  | .illegalOp op, .reservedF => op == 0xF
  | _, _ => false

/-- The head of the buffer is a candidate whose length field is there and which declares more bytes than the capacity (R182). -/
def State.stuck (s : State) : Bool :=
  match s.cfg.cap with
  | none => false
  | some c =>
    decide (byteAt s.buf 0 = HEADER) && decide (7 + frameAddrSize s.buf ≤ s.buf.length) &&
      decide (s.buf.length ≤ c) && decide (c < declaredLen s.buf)

/-- The bytewise XOR of two strings (R96 (a)). -/
def xorBytes (s t : Bytes) : Bytes := List.zipWith (fun a b => a ^^^ b) s t

/-- A string with bit `k` of byte `i` flipped (R96 (d)). -/
def flipBit (s : Bytes) (i k : Nat) : Bytes := s.set i (byteAt s i ^^^ BitVec.ofNat 8 (2 ^ k))

end Sys2Proof.Machine
end

