-- ==== Sys2Proof/Certificates/Slice0/Obligations.lean ====
section
/-! DEFINITION. The statements about the model, for the provers. Titles, texts and citations are in OBLIGATIONS.json. "Decision D<n>" is a
row of spec/92_eei_decisions.md: a choice of the spec's own that the statement rests on. "Log <n>" is a choice of this model's. -/

open Sys2Proof Sys2Proof.Machine

/-! ## Reset and the step -/

/-- R31, R170 (decision D19): after reset the accumulator is 0x0000, the buffer empty, the overflow flag 0; and that state is safe. -/
def Obligations.ResetLeavesInitialState : Prop :=
  State.reset.crc = 0x0000 ∧ State.reset.buf = [] ∧ State.reset.ovf = false ∧ State.reset.wf = true

/-- R170, R171 (decision D19): a reset between two operations, from any state, sets the three items and leaves the constants. What it does
with the inputs still waiting and with the last reply is the model's choice (log 4). -/
def Obligations.ResetEventReinitialises : Prop :=
  ∀ (s : State) (rest : List Input), s.inputs = .resetEvent :: rest →
    step s = .next { cfg := s.cfg, crc := 0x0000, buf := [], ovf := false, inputs := rest, reply := none }

/-- R47, R50 (decision D2; the queue of inputs is log 1): when the next input decodes to an instruction, the step is that instruction's
meaning in the state without that input. -/
def Obligations.StepRunsDecodedInstruction : Prop :=
  ∀ (s : State) (r : Request) (rest : List Input) (i : Instr), s.inputs = .request r :: rest → decode r = .ok i →
    step s = exec i { s with inputs := rest }

/-- What a step does otherwise (the model's choices): with nothing waiting, nothing (log 10); a chunk that is not exactly one frame is fed
(log 8); operands of the wrong shape are refused (log 6). -/
def Obligations.StepWithoutInstruction : Prop :=
  (∀ s : State, s.inputs = [] → step s = .next s) ∧
  (∀ (s : State) (bytes : Bytes) (rest : List Input) (why : Reject), s.inputs = .request (.chunk bytes) :: rest →
    decode (.chunk bytes) = .error why → step s = exec (.feed bytes) { s with inputs := rest }) ∧
  (∀ (s : State) (code : BitVec 4) (operands : Operands) (rest : List Input) (why : Reject),
    s.inputs = .request (.op code operands) :: rest → decode (.op code operands) = .error why →
    step s = .refused (.malformedRequest why))

/-- R5 (decision D1): every operation, in every state and on every operand, runs to completion. -/
def Obligations.EveryInstructionCompletes : Prop :=
  ∀ (i : Instr) (s : State), ∃ t : State, exec i s = .next t ∧ t.reply ≠ none

/-! ## Encodings -/

/-- R74, R75, R61, R62 (decision D3): a few codes and one frame, written out, and the instructions they stand for. -/
def Obligations.TableWordsDecode : Prop :=
  decodeTableWord 8 0x1 = some .crcClr ∧ decodeTableWord 8 0x3 = some .crcRd ∧ decodeTableWord 8 0x7 = some .extract ∧
  decodeTableWord 8 0xB = some .bufClear ∧ decodeTableWord 8 0xC = some .bufLen ∧ decodeTableWord 8 0x0 = some .reserved0 ∧
  decode (.op 0x2 (.opByte 0x31)) = .ok (.crcUpd 0x31) ∧ decode (.op 0xA (.opNat 19)) = .ok (.bufTrim 19) ∧
  decode (.op 0xD (.opBytes [0x5A, 0x00])) = .ok (.feed [0x5A, 0x00]) ∧
  decode (.chunk [0x5A, 0x00, 0x01, 0x22, 0xFF, 0x07, 0x00, 0x00, 0x7B, 0xB4]) =
    .ok (.frameAddr 0x00 0x01 0x22 0xFF 0x07 [] 0x7BB4)

/-- R100 (decisions D6, D28): each of the four BUILD operands that may be left out takes its default when it is, and its value when it is
given, whichever of the others are given. -/
def Obligations.BuildOperandDefaults : Prop :=
  ∀ (category code : Byte) (payload : Option Bytes) (rs485 notify : Option Bool) (addr : Option Byte),
    decode (.op 0x5 (.opBuild category code payload rs485 notify addr)) =
      .ok (.build category code
        (match payload with | none => [] | some p => p)
        (match rs485 with | none => false | some f => f)
        (match notify with | none => false | some f => f)
        (match addr with | none => 0x00 | some a => a))

/-- Every well-formed instruction, with every operand, is read back from its encoding (R61, R62, R74, R75; decision D3). -/
def Obligations.DecodeEncodeRoundTrip : Prop :=
  ∀ i : Instr, WellFormed i = true → decode (encode i) = .ok i

/-- The other direction for frames: a chunk that decodes is exactly the encoding of what it decodes to, so no two chunks stand for one
frame (R61, R62). -/
def Obligations.DecodedChunkIsItsEncoding : Prop :=
  ∀ (f : Bytes) (i : Instr), decode (.chunk f) = .ok i → WellFormed i = true ∧ encode i = .chunk f

/-- R75, R154 (decision D27): the reserved codes raise IllegalOp whatever the operands, and change nothing else. -/
def Obligations.ReservedCodesRaiseIllegalOp : Prop :=
  ∀ (operands : Operands) (s : State),
    (decode (.op 0x0 operands) = .ok .reserved0 ∧ decode (.op 0xE operands) = .ok .reservedE ∧
      decode (.op 0xF operands) = .ok .reservedF) ∧
    exec .reserved0 s = .next { s with reply := some (.error (.illegalOp 0x0)) } ∧
    exec .reservedE s = .next { s with reply := some (.error (.illegalOp 0xE)) } ∧
    exec .reservedF s = .next { s with reply := some (.error (.illegalOp 0xF)) }

/-- R14, R42: the value of a multi-byte field has its most significant byte at the lower index, and the strings BUILD writes are
the inverses. -/
def Obligations.FieldsAreBigEndian : Prop :=
  (∀ (s : Bytes) (i : Nat), (be16At s i).toNat = (byteAt s i).toNat * 256 + (byteAt s (i + 1)).toNat) ∧
  (∀ (s : Bytes) (i : Nat), (be32At s i).toNat = (byteAt s i).toNat * 2 ^ 24 + (byteAt s (i + 1)).toNat * 2 ^ 16 +
    (byteAt s (i + 2)).toNat * 2 ^ 8 + (byteAt s (i + 3)).toNat) ∧
  (∀ v : BitVec 16, (be16 v).length = 2 ∧ be16At (be16 v) 0 = v) ∧
  (∀ v : BitVec 32, (be32 v).length = 4 ∧ be32At (be32 v) 0 = v)

/-- R68: the control word, hence the address size, is decided by the first 5 bytes; the declared length by the first 7 + a; and it is
9 + a + N. -/
def Obligations.FrameLengthFromFirstBytes : Prop :=
  (∀ f g : Bytes, 5 ≤ f.length → f.take 5 = g.take 5 → frameCw f = frameCw g ∧ frameAddrSize f = frameAddrSize g) ∧
  (∀ f g : Bytes, 7 + frameAddrSize f ≤ f.length → f.take (7 + frameAddrSize f) = g.take (7 + frameAddrSize f) →
    declaredLen f = declaredLen g) ∧
  (∀ f : Bytes, frameAddrSize f = (if (be32At f 1).getLsbD 13 then 1 else 0) ∧
    declaredLen f = 9 + frameAddrSize f + (be16At f (5 + frameAddrSize f)).toNat)

/-! ## The CRC unit -/

/-- R91: CRC.CLR sets the accumulator to INIT, answers ok, changes nothing else; its code is 0x1; a CRC.RD after it returns 0x0000. -/
def Obligations.CrcClearSetsInit : Prop :=
  decode (.op 0x1 .opNone) = .ok .crcClr ∧
  ∀ s : State, exec .crcClr s = .next { s with crc := 0x0000, reply := some .ok } ∧
    execAll [.crcClr, .crcRd] s = .next { s with crc := 0x0000, reply := some (.value 0x0000) }

/-- R92 (decision D21): CRC.UPD, its eight iterations written out. -/
def Obligations.CrcUpdateShiftsEightTimes : Prop :=
  ∀ (b : Byte) (s : State),
    let turn : BitVec 16 → BitVec 16 := fun c => if c.msb then (c <<< 1) ^^^ 0x8005#16 else c <<< 1
    exec (.crcUpd b) s =
      .next { s with
        crc := turn (turn (turn (turn (turn (turn (turn (turn (s.crc ^^^ (b ++ 0x00#8)))))))))
        reply := some .ok }

/-- R93: CRC.RD answers the accumulator, which it leaves as it is, so that updates before and after it are one computation; its code is
0x3; its high byte comes first in a frame; the nine bytes "123456789" give 0xFEE8. -/
def Obligations.CrcReadReturnsAccumulator : Prop :=
  decode (.op 0x3 .opNone) = .ok .crcRd ∧
  (∀ s : State, exec .crcRd s = .next { s with reply := some (.value s.crc) }) ∧
  (∀ (pre post : Bytes) (s : State),
    execAll (pre.map .crcUpd ++ [.crcRd] ++ post.map .crcUpd ++ [.crcRd]) s =
      execAll ((pre ++ post).map .crcUpd ++ [.crcRd]) s) ∧
  (∀ v : CrcWord, (be16 v).map BitVec.toNat = [v.toNat / 256, v.toNat % 256]) ∧
  (∀ s : State, execAll (.crcClr :: ([0x31, 0x32, 0x33, 0x34, 0x35, 0x36, 0x37, 0x38, 0x39] : Bytes).map .crcUpd ++ [.crcRd]) s =
    .next { s with crc := 0xFEE8, reply := some (.value 0xFEE8) })

/-- R94 (derived there from R90 to R93): CRC.BLK is CRC.CLR, one CRC.UPD per byte, CRC.RD, as one operation. -/
def Obligations.CrcBlockIsItsExpansion : Prop :=
  ∀ (data : Bytes) (s : State),
    exec (.crcBlk data) s = .next { s with crc := crc16 data, reply := some (.value (crc16 data)) } ∧
    execAll (.crcClr :: data.map .crcUpd ++ [.crcRd]) s = exec (.crcBlk data) s

/-- R96 (a): the check is linear over strings of equal length. -/
def Obligations.CrcIsLinear : Prop :=
  ∀ s t : Bytes, s.length = t.length → crc16 (xorBytes s t) = crc16 s ^^^ crc16 t

/-- R96 (b): data followed by its own check, high byte first, checks to zero. -/
def Obligations.CrcZeroResidue : Prop :=
  ∀ s : Bytes, crc16 (s ++ be16 (crc16 s)) = 0x0000

/-- R96 (c), R179: zero bytes in front are not seen, and an all-zero string of any length checks to zero. -/
def Obligations.CrcIgnoresLeadingZeros : Prop :=
  ∀ (n : Nat) (s : Bytes), crc16 (List.replicate n 0x00 ++ s) = crc16 s ∧ crc16 (List.replicate n 0x00) = 0x0000

/-- R96 (d): flipping one bit anywhere changes the check. -/
def Obligations.CrcSeesEverySingleBitFlip : Prop :=
  ∀ (s : Bytes) (i k : Nat), i < s.length → k < 8 → crc16 (flipBit s i k) ≠ crc16 s

/-- R96 (e): the check of a concatenation is the updates of the second part from the check of the first. -/
def Obligations.CrcStreams : Prop :=
  ∀ (s t : Bytes) (u : State), u.crc = crc16 s →
    execAll (t.map .crcUpd ++ [.crcRd]) u = .next { u with crc := crc16 (s ++ t), reply := some (.value (crc16 (s ++ t))) }

/-- A bit vector read as a polynomial over GF(2): bit k is the coefficient of x^k (R95). -/
noncomputable def Sys2Proof.Machine.bitPoly {w : Nat} (v : BitVec w) : Polynomial (ZMod 2) :=
  ∑ k ∈ Finset.range w, if v.getLsbD k then Polynomial.X ^ k else 0

/-- A byte string read as a polynomial whose highest coefficient is bit 7 of its first byte (R95). -/
noncomputable def Sys2Proof.Machine.dataPoly (data : Bytes) : Polynomial (ZMod 2) :=
  data.foldl (fun p b => p * Polynomial.X ^ 8 + bitPoly b) 0

/-- R95 (general knowledge of the spec's, given for checking): the check is the remainder of D(x) * x^16 modulo
G(x) = x^16 + x^15 + x^2 + 1 over GF(2). -/
def Obligations.CrcIsPolynomialRemainder : Prop :=
  ∀ data : Bytes,
    bitPoly (crc16 data) =
      (dataPoly data * Polynomial.X ^ 16) %ₘ
        (Polynomial.X ^ 16 + Polynomial.X ^ 15 + Polynomial.X ^ 2 + 1 : Polynomial (ZMod 2))

/-! ## BUILD -/

/-- R60, R61, R62, R66, R67, R100, R101 (decisions D5, D6, D16): the frame BUILD answers, field by field, in both formats, told apart by
bit 13 of its control word; BUILD changes no state. -/
def Obligations.BuildAnswersWireFrame : Prop :=
  ∀ (category code : Byte) (payload : Bytes) (rs485 notify : Bool) (addr : Byte) (s : State), payload.length ≤ 65535 →
    ∃ f : Bytes,
      exec (.build category code payload rs485 notify addr) s = .next { s with reply := some (.bytes f) } ∧
      byteAt f 0 = 0x5A ∧
      ((be32At f 1).getLsbD 13 = false →
        f.length = 9 + payload.length ∧ (be16At f 5).toNat = payload.length ∧ slice f 7 (7 + payload.length) = payload ∧
        be16At f (7 + payload.length) = crc16 (slice f 1 (7 + payload.length))) ∧
      ((be32At f 1).getLsbD 13 = true →
        f.length = 10 + payload.length ∧ byteAt f 5 = addr ∧ (be16At f 6).toNat = payload.length ∧
        slice f 8 (8 + payload.length) = payload ∧
        be16At f (8 + payload.length) = crc16 (slice f 1 (8 + payload.length)))

/-- R63, R64 (decision D4): the control word of the frame BUILD answers, bit field by bit field; the flags and the category share bits 13
and 12. -/
def Obligations.BuildControlWordBits : Prop :=
  ∀ (category code : Byte) (payload : Bytes) (rs485 notify : Bool) (addr : Byte) (s : State), payload.length ≤ 65535 →
    ∃ f : Bytes,
      exec (.build category code payload rs485 notify addr) s = .next { s with reply := some (.bytes f) } ∧
      (be32At f 1).extractLsb' 24 8 = s.cfg.protoType ∧ (be32At f 1).extractLsb' 16 8 = s.cfg.protoVer ∧
      (be32At f 1).extractLsb' 14 2 = category.extractLsb' 6 2 ∧
      (be32At f 1).getLsbD 13 = (rs485 || category.getLsbD 5) ∧ (be32At f 1).getLsbD 12 = (notify || category.getLsbD 4) ∧
      (be32At f 1).extractLsb' 8 4 = category.extractLsb' 0 4 ∧ (be32At f 1).extractLsb' 0 8 = code

/-- R102 (decision D12): a payload of more than 65535 bytes raises PayloadTooLong with its length; nothing else changes. -/
def Obligations.BuildRefusesLongPayload : Prop :=
  ∀ (category code : Byte) (payload : Bytes) (rs485 notify : Bool) (addr : Byte) (s : State), 65535 < payload.length →
    exec (.build category code payload rs485 notify addr) s =
      .next { s with reply := some (.error (.payloadTooLong payload.length)) }

/-- R104 (derived there; decisions D4, D5): what PARSE returns for what BUILD returned, for all operands, in whatever state PARSE runs. -/
def Obligations.BuildParseRoundTrip : Prop :=
  ∀ (category code : Byte) (payload : Bytes) (rs485 notify : Bool) (addr : Byte) (s u : State), payload.length ≤ 65535 →
    ∃ (f : Bytes) (r : Frame),
      exec (.build category code payload rs485 notify addr) s = .next { s with reply := some (.bytes f) } ∧
      exec (.parse f) u = .next { u with reply := some (.frame r) } ∧
      r.code = code ∧ r.payload = payload ∧ r.length.toNat = payload.length ∧ r.frameLen = f.length ∧
      r.category = category ||| ((BitVec.ofBool rs485).setWidth 8 <<< 5) ||| ((BitVec.ofBool notify).setWidth 8 <<< 4) ∧
      r.rs485 = (rs485 || category.getLsbD 5) ∧ r.notify = (notify || category.getLsbD 4) ∧
      r.protoType = s.cfg.protoType ∧ r.protoVer = s.cfg.protoVer ∧
      r.addr = (if r.rs485 then some addr else none)

/-! ## PARSE -/

/-- R110, R111: PARSE, its code, its four tests in order and its record, for every string; it reads and writes no state. -/
def Obligations.ParseTestsThenRecord : Prop :=
  ∀ (raw : Bytes) (s : State),
    let n := raw.length
    let cw := be32At raw 1
    let a := if cw.getLsbD 13 then 1 else 0
    let N := (be16At raw (5 + a)).toNat
    let L := 9 + a + N
    let rx := be16At raw (L - 2)
    let ex := crc16 (slice raw 1 (L - 2))
    decode (.op 0x6 (.opBytes raw)) = .ok (.parse raw) ∧
    exec (.parse raw) s =
      .next { s with reply := some (
        if n < 9 then .error (.tooShort n)
        else if byteAt raw 0 ≠ 0x5A then .error (.badHeader (byteAt raw 0))
        else if n < L then .error (.truncated L n)
        else if rx ≠ ex then .error (.crcMismatch rx ex)
        else .frame
          { cw := cw, protoType := cw.extractLsb' 24 8, protoVer := cw.extractLsb' 16 8, rs485 := cw.getLsbD 13,
            notify := cw.getLsbD 12, category := cw.extractLsb' 8 8, code := cw.extractLsb' 0 8,
            addr := if cw.getLsbD 13 then some (byteAt raw 5) else none, length := be16At raw (5 + a),
            payload := slice raw (7 + a) (7 + a + N), crc := rx, frameLen := L }) }

/-- R69 (decision D8): PARSE returns a record exactly for the strings that begin with a valid frame; type, version, reserved bits,
category, code and address play no part. -/
def Obligations.ParseAcceptsExactlyValidFrames : Prop :=
  ∀ (raw : Bytes) (s : State),
    (∃ r : Frame, exec (.parse raw) s = .next { s with reply := some (.frame r) }) ↔
      (9 ≤ raw.length ∧ byteAt raw 0 = 0x5A ∧ declaredLen raw ≤ raw.length ∧
        be16At raw (declaredLen raw - 2) = crc16 (slice raw 1 (declaredLen raw - 2)))

/-- R113 (decision D10): bytes after the frame are ignored. -/
def Obligations.ParseIgnoresBytesAfterFrame : Prop :=
  ∀ (raw extra : Bytes) (s : State) (r : Frame), parseFrame raw = .ok r →
    exec (.parse (raw ++ extra)) s = .next { s with reply := some (.frame r) } ∧
    exec (.parse ((raw ++ extra).take r.frameLen)) s = .next { s with reply := some (.frame r) }

/-! ## EXTRACT -/

/-- R120, R127 (decisions D15, D16): EXTRACT answers the scan of the buffer, raises nothing and changes no state; an empty buffer gives
([], 0, 0). -/
def Obligations.ExtractAnswersScan : Prop :=
  (∀ s : State, exec .extract s =
    .next { s with reply := some (.extracted (extractFrames s.buf).frames (extractFrames s.buf).i (extractFrames s.buf).discards) }) ∧
  (∀ s : State, s.buf = [] → exec .extract s = .next { s with reply := some (.extracted [] 0 0) })

/-- R121, R122 (decision D14): a byte that is not the header is skipped and counts as consumed. -/
def Obligations.ScanSkipsNonHeader : Prop :=
  ∀ (b : Byte) (t : Bytes), b ≠ 0x5A →
    extractFrames (b :: t) = { extractFrames t with i := 1 + (extractFrames t).i }

/-- R122, R124: a complete candidate whose CRC does not match is discarded, and the scan resumes at the byte after its header, every further
byte of it looked at again. -/
def Obligations.ScanDiscardResumesAfterHeader : Prop :=
  ∀ t : Bytes, byteAt t 0 = 0x5A → frameComplete t = true → receivedCrc t ≠ computedCrc t →
    extractFrames t =
      { i := 1 + (extractFrames (t.drop 1)).i, frames := (extractFrames (t.drop 1)).frames,
        discards := 1 + (extractFrames (t.drop 1)).discards }

/-- R122, R125 (derived there): a complete candidate whose CRC matches is accepted, its record is what PARSE returns for its bytes, and the
scan goes on behind it. -/
def Obligations.ScanAcceptsValidFrame : Prop :=
  ∀ (f t : Bytes) (r : Frame), parseFrame f = .ok r → r.frameLen = f.length →
    extractFrames (f ++ t) =
      { i := f.length + (extractFrames t).i, frames := r :: (extractFrames t).frames, discards := (extractFrames t).discards }

/-- R123 (decision D13): an incomplete candidate stops the scan where it stands, whatever follows it. -/
def Obligations.ScanStopsAtIncompleteCandidate : Prop :=
  ∀ t : Bytes, byteAt t 0 = 0x5A →
    (t.length < 5 ∨ t.length < 7 + frameAddrSize t ∨ t.length < declaredLen t) →
    extractFrames t = { i := 0, frames := [], discards := 0 }

/-- R128 (derived there): the scan ends by its own rules; the model's bound on its turns is never what ends it (log 13). -/
def Obligations.ScanEndsWithinItsBound : Prop :=
  ∀ (buf : Bytes) (extra : Nat), Scan.loop buf (buf.length + 1 + extra) Scan.start = extractFrames buf

/-- R126 (decision D14): the consumed count is at most the length, and when bytes are left the first of them is a header whose candidate is
incomplete. -/
def Obligations.ConsumedEndsAtIncompleteCandidate : Prop :=
  ∀ buf : Bytes,
    (extractFrames buf).i ≤ buf.length ∧
    ((extractFrames buf).i < buf.length →
      buf[(extractFrames buf).i]? = some 0x5A ∧ frameComplete (buf.drop (extractFrames buf).i) = false)

/-- R52 (decisions D16 to D18, D31; frame rows: log 7): bytes leave the buffer in the order they entered, operation by operation and
over any run: what was there followed by all that entered is all that left followed by what is there. The frames of EXTRACT and FEED are
PARSE's records of disjoint pieces of the buffer, in the order the pieces stand there. -/
def Obligations.FirstInFirstOut : Prop :=
  (∀ (i : Instr) (s t : State), exec i s = .next t →
    t.buf = (s.buf ++ accepted i s).drop (removedCount i s) ∧ removedCount i s ≤ (s.buf ++ accepted i s).length) ∧
  (∀ (is : List Instr) (s : State), ∃ (entered left : Bytes) (t : State),
    runStream is s = some (entered, left, t) ∧ execAll is s = .next t ∧ s.buf ++ entered = left ++ t.buf) ∧
  (∀ buf : Bytes, ∃ starts : List Nat,
    List.Forall₂ (fun p f => buf[p]? = some 0x5A ∧ parseFrame (slice buf p (p + f.frameLen)) = .ok f)
      starts (extractFrames buf).frames ∧
    (starts.zip (extractFrames buf).frames).Pairwise (fun x y => x.1 + x.2.frameLen ≤ y.1)) ∧
  (∀ s : State, ∃ t : State, exec .extract s = .next t ∧
    t.reply = some (.extracted (extractFrames s.buf).frames (extractFrames s.buf).i (extractFrames s.buf).discards)) ∧
  (∀ (chunk : Bytes) (s : State), ∃ t u : State, exec (.bufPush chunk) s = .next t ∧ exec (.feed chunk) s = .next u ∧
    ∃ k : Nat, u.reply = some (.fed (extractFrames t.buf).frames (extractFrames t.buf).discards k))

/-- R129 (a) (derived there): two valid frames back to back are both returned, all of the buffer is consumed. -/
def Obligations.TwoFramesBackToBack : Prop :=
  ∀ (f g : Bytes) (rf rg : Frame) (s : State), parseFrame f = .ok rf → rf.frameLen = f.length → parseFrame g = .ok rg →
    rg.frameLen = g.length → s.buf = f ++ g →
    exec .extract s = .next { s with reply := some (.extracted [rf, rg] (f.length + g.length) 0) }

/-- R129 (b) (derived there; decisions D13, D14): a damaged frame, then a valid frame. When every 0x5A of the damaged one behind its
header is a candidate that is complete and fails its own CRC, the valid frame is returned and no other, all is consumed, and the
discards are the 0x5A bytes of the damaged frame. Without the condition the scan can stop inside the damaged frame or accept a wrong
frame (R176, R178). -/
def Obligations.DamagedFrameThenValidFrame : Prop :=
  ∀ (bad g : Bytes) (r : Frame) (s : State),
    byteAt bad 0 = 0x5A → declaredLen bad = bad.length → receivedCrc bad ≠ computedCrc bad →
    (∀ j, 1 ≤ j → j < bad.length → byteAt bad j = 0x5A →
      frameComplete ((bad ++ g).drop j) = true ∧ receivedCrc ((bad ++ g).drop j) ≠ computedCrc ((bad ++ g).drop j)) →
    parseFrame g = .ok r → r.frameLen = g.length → s.buf = bad ++ g →
    1 ≤ bad.count 0x5A ∧
      exec .extract s = .next { s with reply := some (.extracted [r] (bad.length + g.length) (bad.count 0x5A)) }

/-- R48, R184 (decision D16): the read-only operations change nothing but the reply, and done again they answer the same. -/
def Obligations.ReadOnlyOperationsRepeat : Prop :=
  ∀ (i : Instr) (s : State), readOnly i = true →
    ∃ r : Reply, exec i s = .next { s with reply := some r } ∧
      exec i { s with reply := some r } = .next { s with reply := some r }

/-! ## The reassembly buffer -/

/-- R135 (decision D17): BUF.PUSHB appends the byte when there is room, and otherwise drops it and sets OVF. -/
def Obligations.PushByteAppendsOrOverflows : Prop :=
  ∀ (b : Byte) (s : State),
    (s.cfg.cap = none ∨ (∃ c, s.cfg.cap = some c ∧ s.buf.length < c) →
      exec (.bufPushb b) s = .next { s with buf := s.buf ++ [b], reply := some (.accepted 1) }) ∧
    (∀ c, s.cfg.cap = some c → c ≤ s.buf.length →
      exec (.bufPushb b) s = .next { s with ovf := true, reply := some (.accepted 0) })

/-- R136 (decisions D17, D25): BUF.PUSH keeps the first k bytes, k as many as fit, answers k, and sets OVF exactly when some byte was
dropped. -/
def Obligations.PushKeepsWhatFits : Prop :=
  ∀ (chunk : Bytes) (s : State), ∃ k : Nat,
    exec (.bufPush chunk) s =
      .next { s with buf := s.buf ++ chunk.take k, ovf := s.ovf || decide (k < chunk.length), reply := some (.accepted k) } ∧
    k ≤ chunk.length ∧
    (s.cfg.cap = none → k = chunk.length) ∧
    (∀ c, s.cfg.cap = some c → k = min chunk.length (c - s.buf.length)) ∧
    (∀ j, j < s.buf.length → Memory.read (s.buf ++ chunk.take k) j = Memory.read s.buf j)

/-- R136: BUF.PUSH is BUF.PUSHB on its bytes in order, done as one operation: the same buffer and the same flag. -/
def Obligations.PushIsRepeatedPushByte : Prop :=
  ∀ (chunk : Bytes) (s : State), ∃ t u : State,
    exec (.bufPush chunk) s = .next t ∧ execAll (chunk.map .bufPushb) s = .next u ∧
    t = { u with reply := t.reply }

/-- R41, R137 (decision D18): BUF.TRIM removes the n oldest bytes, so that the byte at index n comes to index 0, or raises TrimRange and
changes nothing. -/
def Obligations.TrimRemovesOldest : Prop :=
  ∀ (n : Nat) (s : State),
    (n ≤ s.buf.length → ∃ t : State,
      exec (.bufTrim n) s = .next t ∧ t = { s with buf := t.buf, reply := some .ok } ∧
      t.buf.length = s.buf.length - n ∧ ∀ j, Memory.read t.buf j = Memory.read s.buf (n + j)) ∧
    (s.buf.length < n → exec (.bufTrim n) s = .next { s with reply := some (.error (.trimRange n s.buf.length)) })

/-- R138, R139 (decisions D17, D19): BUF.CLEAR empties the buffer and clears the flag; BUF.LEN answers the length and the flag; neither
touches anything else. -/
def Obligations.ClearAndLength : Prop :=
  ∀ s : State,
    exec .bufClear s = .next { s with buf := [], ovf := false, reply := some .ok } ∧
    exec .bufLen s = .next { s with reply := some (.level s.buf.length s.ovf) } ∧
    execAll [.bufClear, .bufLen] s = .next { s with buf := [], ovf := false, reply := some (.level 0 false) }

/-- R140 (decision D16): FEED is BUF.PUSH, EXTRACT, BUF.TRIM of the consumed count, and answers the frames, the discards and the accepted
count of those. -/
def Obligations.FeedIsItsExpansion : Prop :=
  ∀ (chunk : Bytes) (s : State), ∃ (t : State) (k consumed discards : Nat) (frames : List Frame),
    exec (.bufPush chunk) s = .next { t with reply := some (.accepted k) } ∧
    exec .extract t = .next { t with reply := some (.extracted frames consumed discards) } ∧
    exec (.bufTrim consumed) t = .next { t with buf := t.buf.drop consumed, reply := some .ok } ∧
    exec (.feed chunk) s = .next { t with buf := t.buf.drop consumed, reply := some (.fed frames discards k) }

/-- R143 (derived there): after a FEED the buffer is empty or begins with an incomplete candidate, so it is shorter than the longest
frame. -/
def Obligations.FeedLeavesIncompleteCandidate : Prop :=
  ∀ (chunk : Bytes) (s : State), ∃ t : State, exec (.feed chunk) s = .next t ∧ t.buf.length ≤ 65544 ∧
    (t.buf = [] ∨ (byteAt t.buf 0 = 0x5A ∧
      (t.buf.length < 5 ∨ t.buf.length < 7 + frameAddrSize t.buf ∨ t.buf.length < declaredLen t.buf)))

/-- R144 (derived there): cutting a byte string into chunks does not matter: as long as all of it fits, FEEDs of the chunks give the
frames, the discards and the final buffer that one FEED of the whole gives. -/
def Obligations.ChunkingDoesNotMatter : Prop :=
  ∀ (chunks : List Bytes) (s : State), chunks ≠ [] → s.hasRoom chunks.flatten.length = true →
    ∃ (frames : List Frame) (discards : Nat) (t u : State),
      runFeeds chunks s = some (frames, discards, t) ∧ runFeeds [chunks.flatten] s = some (frames, discards, u) ∧
      t = { u with reply := t.reply }

/-- R142 (derived there): a frame that arrives in pieces, cut anywhere, is returned by the FEED that brings its last byte and by no earlier
one. -/
def Obligations.SplitFrameReturnedOnce : Prop :=
  ∀ (pieces : List Bytes) (last : Bytes) (r : Frame) (s : State),
    parseFrame (pieces.flatten ++ last) = .ok r → r.frameLen = (pieces.flatten ++ last).length → last ≠ [] →
    s.buf = [] → s.hasRoom (pieces.flatten ++ last).length = true →
    ∃ t u : State,
      runFeeds pieces s = some ([], 0, t) ∧ t.buf = pieces.flatten ∧ exec (.feed last) t = .next u ∧
      u.reply = some (.fed [r] 0 last.length) ∧ u.buf = [] ∧ u.ovf = s.ovf

/-- R182 (derived there): once the head of the buffer declares more bytes than the capacity, no FEED returns or consumes anything any more,
however often, until BUF.CLEAR. -/
def Obligations.OversizedCandidateIsStuck : Prop :=
  ∀ s : State, s.stuck = true →
    (∀ chunk : Bytes, ∃ (t : State) (k : Nat), exec (.feed chunk) s = .next t ∧ t.stuck = true ∧
      t.reply = some (.fed [] 0 k) ∧ t.buf = s.buf ++ chunk.take k) ∧
    exec .extract s = .next { s with reply := some (.extracted [] 0 0) } ∧
    ∃ t : State, exec .bufClear s = .next t ∧ t.stuck = false ∧ t.buf = []

/-! ## Frames as instructions (log 7) -/

/-- R61, R62: the bytes of a frame row, field by field; the frame's arrival is a FEED of them (log 7). -/
def Obligations.FrameArrivalIsFeed : Prop :=
  (∀ (protoType protoVer category code : Byte) (payload : Bytes) (crc : CrcWord) (s : State),
    WellFormed (.framePlain protoType protoVer category code payload crc) = true →
    ∃ t : State, exec (.framePlain protoType protoVer category code payload crc) s = .next t ∧
      exec (.feed ([0x5A, protoType, protoVer, category, code] ++ be16 (BitVec.ofNat 16 payload.length) ++ payload ++ be16 crc)) s =
        .next t) ∧
  (∀ (protoType protoVer category code addr : Byte) (payload : Bytes) (crc : CrcWord) (s : State),
    WellFormed (.frameAddr protoType protoVer category code addr payload crc) = true →
    ∃ t : State, exec (.frameAddr protoType protoVer category code addr payload crc) s = .next t ∧
      exec (.feed ([0x5A, protoType, protoVer, category, code, addr] ++ be16 (BitVec.ofNat 16 payload.length) ++ payload ++
        be16 crc)) s = .next t)

/-- A frame with a matching CRC that arrives at an empty buffer with room for it comes out as the one frame returned, its fields as sent,
and the buffer is empty again (R61, R62, R65, R125, R140; log 7). -/
def Obligations.CleanFrameArrives : Prop :=
  (∀ (protoType protoVer category code : Byte) (payload : Bytes) (s : State),
    let body := [protoType, protoVer, category, code] ++ be16 (BitVec.ofNat 16 payload.length) ++ payload
    WellFormed (.framePlain protoType protoVer category code payload (crc16 body)) = true → s.buf = [] →
    s.hasRoom (9 + payload.length) = true →
    ∃ r : Frame,
      exec (.framePlain protoType protoVer category code payload (crc16 body)) s =
        .next { s with reply := some (.fed [r] 0 (9 + payload.length)) } ∧
      r.protoType = protoType ∧ r.protoVer = protoVer ∧ r.category = category ∧ r.code = code ∧ r.addr = none ∧
      r.payload = payload ∧ r.frameLen = 9 + payload.length) ∧
  (∀ (protoType protoVer category code addr : Byte) (payload : Bytes) (s : State),
    let body := [protoType, protoVer, category, code, addr] ++ be16 (BitVec.ofNat 16 payload.length) ++ payload
    WellFormed (.frameAddr protoType protoVer category code addr payload (crc16 body)) = true → s.buf = [] →
    s.hasRoom (10 + payload.length) = true →
    ∃ r : Frame,
      exec (.frameAddr protoType protoVer category code addr payload (crc16 body)) s =
        .next { s with reply := some (.fed [r] 0 (10 + payload.length)) } ∧
      r.protoType = protoType ∧ r.protoVer = protoVer ∧ r.category = category ∧ r.code = code ∧ r.addr = some addr ∧
      r.payload = payload ∧ r.frameLen = 10 + payload.length)

/-! ## Whole-machine rules -/

/-- R20, R21, R27, R71 (decisions D1, D7, D17, D20): which instructions may write which piece of state. Everything else is unchanged by
every instruction, the constants and the waiting inputs by all of them. -/
def Obligations.OnlyListedInstructionsWrite : Prop :=
  ∀ (i : Instr) (s t : State), exec i s = .next t →
    t.cfg = s.cfg ∧ t.inputs = s.inputs ∧
    (writesCrc i = false → t.crc = s.crc) ∧
    (writesBuf i = false → ∀ j, Memory.read t.buf j = Memory.read s.buf j) ∧
    (writesOvf i = false → t.ovf = s.ovf)

/-- R22 (decisions D16 to D18; frame rows: log 7): bytes enter at the tail, behind what is there, and leave from the front, as many as the
operation removes; only the removing operations do so, and over all steps only these, chunks from the line (log 8) and reset; and the
buffer never exceeds its capacity. -/
def Obligations.BufferGrowsAtTailShrinksAtHead : Prop :=
  (∀ (i : Instr) (s t : State), exec i s = .next t →
    (s.wf = true → t.wf = true) ∧
    t.buf = (s.buf ++ accepted i s).drop (removedCount i s) ∧
    (removesBytes i = false → t.buf = s.buf ++ accepted i s) ∧
    (writesBuf i = false → t.buf = s.buf)) ∧
  (∀ s t : State, step s = .next t →
    s.buf <+: t.buf ∨
    (∃ rest, s.inputs = .resetEvent :: rest) ∨
    (∃ r rest i, s.inputs = .request r :: rest ∧ decode r = .ok i ∧ removesBytes i = true) ∨
    (∃ bytes rest, s.inputs = .request (.chunk bytes) :: rest))

/-- R20, R22, R27: every step, whatever the input, keeps the buffer within the capacity and the constants as they are. -/
def Obligations.StepKeepsBufferWithinCapacity : Prop :=
  ∀ s t : State, s.wf = true → step s = .next t → t.wf = true ∧ t.cfg = s.cfg

/-- R23, R153 (decision D17): OVF is sticky: only BUF.CLEAR and a reset clear it; with an unbounded capacity nothing sets it. -/
def Obligations.OverflowFlagIsSticky : Prop :=
  (∀ (i : Instr) (s t : State), exec i s = .next t → i ≠ .bufClear → s.ovf = true → t.ovf = true) ∧
  (∀ (i : Instr) (s t : State), exec i s = .next t → s.cfg.cap = none → s.ovf = false → t.ovf = false) ∧
  (∀ s t : State, step s = .next t → s.ovf = true → t.ovf = false →
    (∃ rest, s.inputs = .resetEvent :: rest) ∨
      (∃ r rest, s.inputs = .request r :: rest ∧ decode r = .ok .bufClear))

/-- R15, R151 (decision D1): an operation that ends in an error changes no state; it only hands the error back. -/
def Obligations.ErrorsChangeNoState : Prop :=
  ∀ (i : Instr) (s t : State) (e : BlockError), exec i s = .next t → t.reply = some (.error e) →
    t = { s with reply := some (.error e) }

/-- R150, R154 (decisions D9, D11): each error comes from its own operation only, so that the CRC operations, EXTRACT, the other buffer
operations and FEED raise nothing; and the errors' numbers. -/
def Obligations.ErrorsComeFromTheirOperations : Prop :=
  (∀ (i : Instr) (s t : State) (e : BlockError), exec i s = .next t → t.reply = some (.error e) → raisedBy e i = true) ∧
  (∀ n m : Nat, ∀ b : Byte, ∀ v w : CrcWord, ∀ op : BitVec 4,
    (BlockError.tooShort n).number = 0x01 ∧ (BlockError.badHeader b).number = 0x02 ∧ (BlockError.truncated n m).number = 0x03 ∧
    (BlockError.crcMismatch v w).number = 0x04 ∧ (BlockError.payloadTooLong n).number = 0x10 ∧
    (BlockError.trimRange n m).number = 0x20 ∧ (BlockError.illegalOp op).number = 0x7F)

/-- R20, R29: nothing but the listed state survives from one operation to the next: what an operation does is independent of what the
one before handed back. -/
def Obligations.RepliesDoNotInfluenceOperations : Prop :=
  ∀ (i : Instr) (s : State) (earlier : Option Reply), exec i { s with reply := earlier } = exec i s

/-- R12, R161: instances share nothing: a step of one leaves every other as it was, and does to its own what it does when it stands
alone. -/
def Obligations.InstancesShareNothing : Prop :=
  ∀ (sys : System) (k : Nat),
    (∀ j, j ≠ k → (sys.stepAt k)[j]? = sys[j]?) ∧
    (∀ s t : State, sys[k]? = some s → step s = .next t → (sys.stepAt k)[k]? = some t)
end

