-- ==== Sys2Proof/Laws/Bytes.lean ====
section
/-! SUPPORT. Byte strings: indexing and slicing of concatenations, and the big-endian forms. -/

namespace Sys2Proof.Machine

@[simp] theorem byteAt_cons_zero (b : Byte) (s : Bytes) : byteAt (b :: s) 0 = b := rfl

@[simp] theorem byteAt_cons_succ (b : Byte) (s : Bytes) (i : Nat) : byteAt (b :: s) (i + 1) = byteAt s i := rfl

@[simp] theorem byteAt_nil (i : Nat) : byteAt [] i = 0 := rfl

theorem byteAt_append_left {s : Bytes} (t : Bytes) {i : Nat} (h : i < s.length) : byteAt (s ++ t) i = byteAt s i := by
  simp only [byteAt, List.getD_eq_getElem?_getD, List.getElem?_append_left h]

theorem byteAt_append_right {s : Bytes} (t : Bytes) (i : Nat) : byteAt (s ++ t) (s.length + i) = byteAt t i := by
  simp only [byteAt, List.getD_eq_getElem?_getD, List.getElem?_append_right (Nat.le_add_right _ _), Nat.add_sub_cancel_left]

theorem byteAt_take {s : Bytes} {n i : Nat} (h : i < n) : byteAt (s.take n) i = byteAt s i := by
  simp [byteAt, h]

theorem byteAt_drop (s : Bytes) (n i : Nat) : byteAt (s.drop n) i = byteAt s (n + i) := by
  simp [byteAt]

/-- A byte read inside the string is the byte that stands there. -/
theorem getElem?_eq_byteAt {s : Bytes} {i : Nat} (h : i < s.length) : s[i]? = some (byteAt s i) := by
  simp [byteAt, h]

@[simp] theorem be16_length (v : BitVec 16) : (be16 v).length = 2 := rfl

@[simp] theorem be32_length (v : BitVec 32) : (be32 v).length = 4 := rfl

/-- The bits of a big-endian 16-bit value: the low byte is the second one. -/
theorem getLsbD_be16At (s : Bytes) (i k : Nat) :
    (be16At s i).getLsbD k = if k < 8 then (byteAt s (i + 1)).getLsbD k else (byteAt s i).getLsbD (k - 8) :=
  BitVec.getLsbD_append

/-- The bits of a control word given by its bytes, the last byte lowest. -/
theorem getLsbD_cwOfBytes (a b c d : Byte) (k : Nat) :
    (cwOfBytes a b c d).getLsbD k =
      if k < 8 then d.getLsbD k else if k < 16 then c.getLsbD (k - 8) else
        if k < 24 then b.getLsbD (k - 16) else a.getLsbD (k - 24) := by
  have h : (cwOfBytes a b c d).getLsbD k =
      if k < 8 then d.getLsbD k else (a ++ b ++ c).getLsbD (k - 8) := BitVec.getLsbD_append
  rw [h, BitVec.getLsbD_append, BitVec.getLsbD_append]
  split_ifs <;> first | rfl | omega

/-- A byte of a word is known by its bits. -/
theorem extractLsb'_eq_byte {w : Nat} {v : BitVec w} {n : Nat} {x : Byte}
    (h : ∀ k, k < 8 → v.getLsbD (n + k) = x.getLsbD k) : v.extractLsb' n 8 = x :=
  BitVec.eq_of_getLsbD_eq fun k hk => by simp only [BitVec.getLsbD_extractLsb', hk, decide_true, Bool.true_and, h k hk]

/-- Two bytes written high byte first are read back (R14). -/
theorem be16At_be16 (v : BitVec 16) : be16At (be16 v) 0 = v :=
  BitVec.eq_of_getLsbD_eq fun k hk => by
    rw [getLsbD_be16At]
    simp only [be16, byteAt_cons_zero, byteAt_cons_succ, BitVec.getLsbD_extractLsb']
    split_ifs with h
    · simp [h]
    · simp [show k - 8 < 8 by omega, show 8 + (k - 8) = k by omega]

/-- Reading two bytes and writing them again gives the two bytes. -/
theorem be16_be16At (s : Bytes) (i : Nat) : be16 (be16At s i) = [byteAt s i, byteAt s (i + 1)] := by
  simp only [be16, List.cons.injEq, and_true]
  constructor <;> refine extractLsb'_eq_byte fun k hk => ?_ <;> rw [getLsbD_be16At]
  · simp [show ¬ (8 + k < 8) by omega]
  · simp [hk]

/-- The bytes of a control word given by its bytes are those bytes. -/
theorem be32_cwOfBytes (a b c d : Byte) : be32 (cwOfBytes a b c d) = [a, b, c, d] := by
  simp only [be32, List.cons.injEq, and_true]
  refine ⟨?_, ?_, ?_, ?_⟩ <;> refine extractLsb'_eq_byte fun k hk => ?_ <;> rw [getLsbD_cwOfBytes] <;>
    split_ifs <;> first | omega | (congr 1; omega)

/-- Four bytes read together are the word they are the bytes of. -/
theorem be32At_eq_cwOfBytes (s : Bytes) (i : Nat) :
    be32At s i = cwOfBytes (byteAt s i) (byteAt s (i + 1)) (byteAt s (i + 2)) (byteAt s (i + 3)) := rfl

/-- Four bytes written high byte first are read back (R14). -/
theorem be32At_be32 (v : BitVec 32) : be32At (be32 v) 0 = v :=
  BitVec.eq_of_getLsbD_eq fun k hk => by
    rw [be32At_eq_cwOfBytes, getLsbD_cwOfBytes]
    simp only [be32, byteAt_cons_zero, byteAt_cons_succ, BitVec.getLsbD_extractLsb']
    split_ifs with h1 h2 h3
    · simp [h1]
    · simp [show k - 8 < 8 by omega, show 8 + (k - 8) = k by omega]
    · simp [show k - 16 < 8 by omega, show 16 + (k - 16) = k by omega]
    · simp [show k - 24 < 8 by omega, show 24 + (k - 24) = k by omega]

theorem be16At_append_left {s : Bytes} (t : Bytes) {i : Nat} (h : i + 1 < s.length) : be16At (s ++ t) i = be16At s i := by
  simp only [be16At, byteAt_append_left t h, byteAt_append_left t (show i < s.length by omega)]

theorem be16At_append_right {s : Bytes} (t : Bytes) (i : Nat) : be16At (s ++ t) (s.length + i) = be16At t i := by
  simp only [be16At, Nat.add_assoc, byteAt_append_right]

/-- Two bytes read where the second part begins. -/
theorem be16At_append_length (s t : Bytes) : be16At (s ++ t) s.length = be16At t 0 := be16At_append_right t 0

theorem be32At_append_left {s : Bytes} (t : Bytes) {i : Nat} (h : i + 3 < s.length) : be32At (s ++ t) i = be32At s i := by
  simp only [be32At, byteAt_append_left t h, byteAt_append_left t (show i < s.length by omega),
    byteAt_append_left t (show i + 1 < s.length by omega), byteAt_append_left t (show i + 2 < s.length by omega)]

/-- A slice that ends inside the first part of a concatenation. -/
theorem slice_append_left {s : Bytes} (t : Bytes) {i j : Nat} (h : j ≤ s.length) : slice (s ++ t) i j = slice s i j := by
  unfold slice
  by_cases hij : i ≤ j
  · rw [List.drop_append_of_le_length (by omega), List.take_append_of_le_length (by simp; omega)]
  · simp [show j - i = 0 by omega]

/-- A slice that begins with the second part and ends inside it. -/
theorem slice_append_right (s t : Bytes) (i j : Nat) : slice (s ++ t) (s.length + i) (s.length + j) = slice t i j := by
  unfold slice
  rw [List.drop_append, List.drop_eq_nil_of_le (by omega), List.nil_append, Nat.add_sub_cancel_left, Nat.add_sub_add_left]

/-- A slice that begins where the second part does. -/
theorem slice_append_length (s t : Bytes) (n : Nat) : slice (s ++ t) s.length (s.length + n) = t.take n :=
  slice_append_right s t 0 n

theorem slice_length (s : Bytes) (i j : Nat) : (slice s i j).length = min (j - i) (s.length - i) := by
  simp [slice]

end Sys2Proof.Machine
end

