-- ==== Sys2Proof/Laws/ControlWord.lean ====
section
/-! SUPPORT. The bits of the control word that BUILD assembles, the overlap of category and flags included (spec/30_encoding.md R63, R64). -/

namespace Sys2Proof.Machine

theorem bit32_getLsbD (b : Bool) (k : Nat) : (bit32 b).getLsbD k = (decide (k = 0) && b) := by
  cases b
  · simp [bit32]
  · by_cases h : k = 0
    · subst h; decide
    · simp [bit32, BitVec.ofBool, h]

/-- Bit `k` of the assembled control word, byte by byte: bits 13 and 12 are category bits with a flag ORed in. -/
theorem getLsbD_assembleCw (cfg : Config) (category code : Byte) (rs485 notify : Bool) {k : Nat} (hk : k < 32) :
    (assembleCw cfg category code rs485 notify).getLsbD k =
      if k < 8 then code.getLsbD k
      else if k < 16 then category.getLsbD (k - 8) || (decide (k = 13) && rs485) || (decide (k = 12) && notify)
      else if k < 24 then cfg.protoVer.getLsbD (k - 16)
      else cfg.protoType.getLsbD (k - 24) := by
  simp only [assembleCw, BitVec.getLsbD_or, BitVec.getLsbD_shiftLeft, BitVec.getLsbD_setWidth, bit32_getLsbD, hk, decide_true,
    Bool.true_and]
  have hb : ∀ (x : Byte) j, 8 ≤ j → x.getLsbD j = false := fun x j hj => BitVec.getLsbD_of_ge _ _ hj
  by_cases h13 : k = 13
  · subst h13; simp; cases rs485 <;> simp
  by_cases h12 : k = 12
  · subst h12; simp; cases notify <;> simp
  split_ifs with h8 h16 h24
  · simp [show k < 24 by omega, show k < 16 by omega, show k < 13 by omega, show k < 12 by omega, h8]
  · simp [show k < 24 by omega, h16, h8, h12, h13, hb code k (by omega), show k - 8 < 32 by omega]
    rintro (⟨_, _, _⟩ | ⟨_, _, _⟩) <;> omega
  · simp [h24, h16, h8, hb code k (by omega), hb category (k - 8) (by omega), show ¬ k < 13 by omega, show ¬ k < 12 by omega,
      show k - 13 ≠ 0 by omega, show k - 12 ≠ 0 by omega, show k - 16 < 32 by omega]
  · simp [h24, h16, h8, hb code k (by omega), hb category (k - 8) (by omega), hb cfg.protoVer (k - 16) (by omega),
      show ¬ k < 13 by omega, show ¬ k < 12 by omega, show k - 13 ≠ 0 by omega, show k - 12 ≠ 0 by omega,
      show k - 24 < 32 by omega]

end Sys2Proof.Machine
end

