-- ==== Sys2Proof/Laws/Crc.lean ====
section
/-! SUPPORT. The CRC function as a fold, and its linearity step by step (spec/40_crc.md R95, R96). -/

namespace Sys2Proof.Machine

@[simp] theorem crcFold_nil (c : CrcWord) : crcFold c [] = c := rfl

@[simp] theorem crcFold_cons (c : CrcWord) (b : Byte) (data : Bytes) : crcFold c (b :: data) = crcFold (crcStep c b) data := rfl

/-- Feeding two strings one after the other. -/
theorem crcFold_append (c : CrcWord) (s t : Bytes) : crcFold c (s ++ t) = crcFold (crcFold c s) t := by
  simp [crcFold]

theorem crcShift_zero : crcShift 0 = 0 := by decide

/-- One shift-XOR iteration is linear over XOR. -/
theorem crcShift_xor (a b : CrcWord) : crcShift (a ^^^ b) = crcShift a ^^^ crcShift b := by
  unfold crcShift
  rw [BitVec.getLsbD_xor, BitVec.shiftLeft_xor_distrib]
  cases a.getLsbD 15 <;> cases b.getLsbD 15 <;> simp only [Bool.xor_self, Bool.true_xor, Bool.false_xor, Bool.not_false,
    Bool.false_eq_true, if_true, if_false]
  · rw [BitVec.xor_assoc]
  · rw [BitVec.xor_assoc, BitVec.xor_assoc, BitVec.xor_comm (b <<< 1)]
  · rw [BitVec.xor_assoc (a <<< 1), BitVec.xor_comm (b <<< 1), ← BitVec.xor_assoc POLY, BitVec.xor_self, BitVec.zero_xor]

theorem crcShifts_zero (k : Nat) : crcShifts k 0 = 0 := by
  induction k with
  | zero => rfl
  | succ k ih => rw [crcShifts, crcShift_zero, ih]

theorem crcShifts_xor (k : Nat) (a b : CrcWord) : crcShifts k (a ^^^ b) = crcShifts k a ^^^ crcShifts k b := by
  induction k generalizing a b with
  | zero => rfl
  | succ k ih => rw [crcShifts, crcShift_xor, ih]; rfl

/-- A byte of zeros leaves the zero accumulator at zero. -/
theorem crcStep_zero : crcStep 0 0 = 0 := by decide

end Sys2Proof.Machine
end

