-- ==== Sys2Proof/Laws/Frame.lean ====
section
/-! SUPPORT. What a receiver reads of a frame: it depends on the frame's own bytes only, whatever follows them, and it gives back what a
wire frame was made of. -/

namespace Sys2Proof.Machine

/-- Bit 13 of a control word given by its bytes is bit 5 of the category byte (R63). -/
theorem cwRs485_cwOfBytes (a b c d : Byte) : cwRs485 (cwOfBytes a b c d) = c.getLsbD 5 := by
  rw [cwRs485, getLsbD_cwOfBytes]
  rfl

theorem addrSize_le_one (cw : CtlWord) : addrSize cw ≤ 1 := by
  unfold addrSize; split <;> omega

theorem frameAddrSize_le_one (f : Bytes) : frameAddrSize f ≤ 1 := addrSize_le_one _

theorem declaredLen_eq (f : Bytes) : declaredLen f = 9 + frameAddrSize f + (frameLenField f).toNat := rfl

theorem declaredLen_ge (f : Bytes) : 9 + frameAddrSize f ≤ declaredLen f := by
  rw [declaredLen_eq]; omega

/-- No frame is longer than MAX_FRAME (R10). -/
theorem declaredLen_le (f : Bytes) : declaredLen f ≤ 65545 := by
  have h1 := frameAddrSize_le_one f
  have h2 := (frameLenField f).isLt
  rw [declaredLen_eq]; omega

theorem frameComplete_iff (f : Bytes) :
    frameComplete f = true ↔ 5 ≤ f.length ∧ 7 + frameAddrSize f ≤ f.length ∧ declaredLen f ≤ f.length := by
  simp [frameComplete, and_assoc]

theorem frameComplete_eq_false_iff (f : Bytes) :
    frameComplete f = false ↔ f.length < 5 ∨ f.length < 7 + frameAddrSize f ∨ f.length < declaredLen f := by
  rw [← Bool.not_eq_true, frameComplete_iff]; omega

/-! ## What follows a frame does not matter -/

section Append

variable {f : Bytes} (t : Bytes)

theorem frameCw_append (h : 5 ≤ f.length) : frameCw (f ++ t) = frameCw f := be32At_append_left t (by omega)

theorem frameAddrSize_append (h : 5 ≤ f.length) : frameAddrSize (f ++ t) = frameAddrSize f := by
  simp only [frameAddrSize, frameCw_append t h]

theorem frameLenField_append (h5 : 5 ≤ f.length) (h : 7 + frameAddrSize f ≤ f.length) :
    frameLenField (f ++ t) = frameLenField f := by
  simp only [frameLenField, frameAddrSize_append t h5]
  exact be16At_append_left t (by omega)

theorem declaredLen_append (h5 : 5 ≤ f.length) (h : 7 + frameAddrSize f ≤ f.length) :
    declaredLen (f ++ t) = declaredLen f := by
  simp only [declaredLen_eq, frameAddrSize_append t h5, frameLenField_append t h5 h]

variable (h : frameComplete f = true)
include h

theorem declaredLen_append_of_complete : declaredLen (f ++ t) = declaredLen f := by
  rw [frameComplete_iff] at h; exact declaredLen_append t h.1 h.2.1

theorem frameComplete_append : frameComplete (f ++ t) = true := by
  have hL := declaredLen_append_of_complete t h
  rw [frameComplete_iff] at *
  rw [frameAddrSize_append t h.1, hL]
  simp only [List.length_append]
  omega

theorem framePayload_append : framePayload (f ++ t) = framePayload f := by
  rw [frameComplete_iff] at h
  simp only [framePayload, frameAddrSize_append t h.1, frameLenField_append t h.1 h.2.1]
  refine slice_append_left t ?_
  have := h.2.2
  rw [declaredLen_eq] at this
  omega

theorem receivedCrc_append : receivedCrc (f ++ t) = receivedCrc f := by
  have hL := declaredLen_append_of_complete t h
  rw [frameComplete_iff] at h
  simp only [receivedCrc, hL]
  have := declaredLen_ge f
  exact be16At_append_left t (by omega)

theorem computedCrc_append : computedCrc (f ++ t) = computedCrc f := by
  have hL := declaredLen_append_of_complete t h
  rw [frameComplete_iff] at h
  simp only [computedCrc, hL]
  rw [slice_append_left t (by omega)]

theorem frameRecord_append : frameRecord (f ++ t) = frameRecord f := by
  have hL := declaredLen_append_of_complete t h
  have hp := framePayload_append t h
  have hr := receivedCrc_append t h
  rw [frameComplete_iff] at h
  have := declaredLen_ge f
  simp only [frameRecord, frameCw_append t h.1, frameLenField_append t h.1 h.2.1, hL, hp, hr,
    byteAt_append_left t (show 5 < f.length by omega)]

end Append

/-- The frame's own bytes are a complete frame of the length they declare. -/
theorem frameComplete_take {t : Bytes} (h : frameComplete t = true) :
    frameComplete (t.take (declaredLen t)) = true ∧ declaredLen (t.take (declaredLen t)) = declaredLen t := by
  have h' := (frameComplete_iff t).1 h
  have hge := declaredLen_ge t
  have hlen : (t.take (declaredLen t)).length = declaredLen t := by simp [h'.2.2]
  have hsplit : t.take (declaredLen t) ++ t.drop (declaredLen t) = t := List.take_append_drop _ _
  have ha : frameAddrSize (t.take (declaredLen t)) = frameAddrSize t := by
    rw [← frameAddrSize_append (t.drop (declaredLen t)) (by omega), hsplit]
  have hL : declaredLen (t.take (declaredLen t)) = declaredLen t := by
    rw [← declaredLen_append (t.drop (declaredLen t)) (by omega) (by rw [ha]; omega), hsplit]
  exact ⟨(frameComplete_iff _).2 ⟨by omega, by rw [ha]; omega, by rw [hL, hlen]⟩, hL⟩

/-- A record depends on the frame's own bytes only. -/
theorem frameRecord_take {t : Bytes} (h : frameComplete t = true) :
    frameRecord (t.take (declaredLen t)) = frameRecord t := by
  have h1 := (frameComplete_take h).1
  rw [← frameRecord_append (t.drop (declaredLen t)) h1, List.take_append_drop]

/-! ## PARSE -/

/-- The spec of `parseFrame`: the record, exactly when the four tests pass. -/
theorem parseFrame_ok_iff (raw : Bytes) (r : Frame) :
    parseFrame raw = .ok r ↔
      (9 ≤ raw.length ∧ byteAt raw 0 = HEADER ∧ declaredLen raw ≤ raw.length ∧ receivedCrc raw = computedCrc raw) ∧
        r = frameRecord raw := by
  unfold parseFrame MIN_FRAME
  split_ifs with h1 h2 h3 h4
  · simp; omega
  · simp [h2]
  · simp; omega
  · simp [h4]
  · simp only [ne_eq, not_not] at h2 h4
    simp only [Except.ok.injEq, h2, h4, and_true, true_and, show 9 ≤ raw.length by omega,
      show declaredLen raw ≤ raw.length by omega, eq_comm]

/-- Nine bytes or more, and as many as declared, are a complete frame. -/
theorem frameComplete_of_length {f : Bytes} (h : declaredLen f ≤ f.length) : frameComplete f = true := by
  have := declaredLen_ge f
  exact (frameComplete_iff f).2 ⟨by omega, by omega, h⟩

/-- What a successful PARSE says of the string. -/
theorem parseFrame_ok {raw : Bytes} {r : Frame} (h : parseFrame raw = .ok r) :
    byteAt raw 0 = HEADER ∧ frameComplete raw = true ∧ receivedCrc raw = computedCrc raw ∧ r = frameRecord raw := by
  obtain ⟨⟨-, h2, h3, h4⟩, hr⟩ := (parseFrame_ok_iff raw r).1 h
  exact ⟨h2, frameComplete_of_length h3, h4, hr⟩

/-! ## The parts of a wire frame -/

section Wire

variable (cw : CtlWord) (addr : Byte) (payload : Bytes) (crc : CrcWord)

theorem frameBody_length : (frameBody cw addr payload).length = 6 + addrSize cw + payload.length := by
  unfold frameBody addrSize
  split_ifs <;> simp <;> omega

theorem wireFrame_length : (wireFrame cw addr payload crc).length = 9 + addrSize cw + payload.length := by
  simp only [wireFrame, List.length_append, frameBody_length, be16_length, List.length_singleton]
  omega

@[simp] theorem byteAt_wireFrame_zero : byteAt (wireFrame cw addr payload crc) 0 = HEADER := rfl

/-- A wire frame, its parts in a row. -/
theorem wireFrame_eq :
    wireFrame cw addr payload crc =
      ([HEADER] ++ be32 cw ++ (if cwRs485 cw then [addr] else [])) ++ be16 (BitVec.ofNat 16 payload.length) ++ payload ++ be16 crc := by
  simp [wireFrame, frameBody, List.append_assoc]

@[simp] theorem frameCw_wireFrame : frameCw (wireFrame cw addr payload crc) = cw := by
  have h : frameCw (wireFrame cw addr payload crc) = be32At (be32 cw) 0 := by
    simp [frameCw, wireFrame, frameBody, be32At, be32]
  rw [h, be32At_be32]

@[simp] theorem frameAddrSize_wireFrame : frameAddrSize (wireFrame cw addr payload crc) = addrSize cw := by
  simp only [frameAddrSize, frameCw_wireFrame]

/-- The bytes before the length field. -/
theorem wireFrame_head_length :
    ([HEADER] ++ be32 cw ++ (if cwRs485 cw then [addr] else [])).length = 5 + addrSize cw := by
  unfold addrSize
  split_ifs <;> simp

@[simp] theorem frameLenField_wireFrame :
    frameLenField (wireFrame cw addr payload crc) = BitVec.ofNat 16 payload.length := by
  simp only [frameLenField, frameAddrSize_wireFrame]
  rw [wireFrame_eq, ← wireFrame_head_length cw addr, List.append_assoc, List.append_assoc,
    be16At_append_length, be16At_append_left _ (by simp), be16At_be16]

variable (hp : payload.length ≤ 65535)
include hp

theorem declaredLen_wireFrame :
    declaredLen (wireFrame cw addr payload crc) = (wireFrame cw addr payload crc).length := by
  simp only [declaredLen_eq, frameAddrSize_wireFrame, frameLenField_wireFrame, wireFrame_length, BitVec.toNat_ofNat]
  omega

theorem frameComplete_wireFrame : frameComplete (wireFrame cw addr payload crc) = true :=
  frameComplete_of_length (declaredLen_wireFrame cw addr payload crc hp).le

theorem framePayload_wireFrame : framePayload (wireFrame cw addr payload crc) = payload := by
  simp only [framePayload, frameAddrSize_wireFrame, frameLenField_wireFrame, BitVec.toNat_ofNat,
    Nat.mod_eq_of_lt (show payload.length < 2 ^ 16 by omega)]
  have hh : (([HEADER] ++ be32 cw ++ (if cwRs485 cw then [addr] else [])) ++ be16 (BitVec.ofNat 16 payload.length)).length =
      7 + addrSize cw := by
    rw [List.length_append, wireFrame_head_length, be16_length]; omega
  rw [wireFrame_eq, ← hh, slice_append_left _ List.length_append.ge, slice_append_length, List.take_length]

theorem receivedCrc_wireFrame : receivedCrc (wireFrame cw addr payload crc) = crc := by
  unfold receivedCrc
  rw [declaredLen_wireFrame cw addr payload crc hp]
  have hs : (wireFrame cw addr payload crc).length - 2 = ([HEADER] ++ frameBody cw addr payload).length := by
    simp only [wireFrame, List.length_append, be16_length]; omega
  rw [hs, wireFrame, be16At_append_length, be16At_be16]

theorem computedCrc_wireFrame : computedCrc (wireFrame cw addr payload crc) = crc16 (frameBody cw addr payload) := by
  unfold computedCrc
  rw [declaredLen_wireFrame cw addr payload crc hp]
  have hs : (wireFrame cw addr payload crc).length - 2 = ([HEADER] ++ frameBody cw addr payload).length := by
    simp only [wireFrame, List.length_append, be16_length]; omega
  rw [hs, wireFrame, slice_append_left _ le_rfl]
  simp [slice]

end Wire

end Sys2Proof.Machine
end

