-- ==== Sys2Proof/Laws/Extract.lean ====
section
/-! SUPPORT. The scan: what one turn does, that it makes progress and stays inside the buffer, that bytes before the cursor do not matter,
and that the bound on the number of turns is never reached (spec/43_frame_extract.md R121, R128). -/

namespace Sys2Proof.Machine

/-! ## Candidates -/

/-- The three kinds of candidate, and when each is met. -/
theorem candidate_cases (t : Bytes) :
    (frameComplete t = false ∧ candidate t = .stop) ∨
    (frameComplete t = true ∧ receivedCrc t = computedCrc t ∧ candidate t = .accept (frameRecord t)) ∨
    (frameComplete t = true ∧ receivedCrc t ≠ computedCrc t ∧ candidate t = .discard) := by
  unfold candidate
  cases h : frameComplete t
  · exact .inl ⟨rfl, by simp⟩
  · by_cases hc : receivedCrc t = computedCrc t
    · exact .inr (.inl ⟨rfl, hc, by simp [hc, frameRecord_take h]⟩)
    · exact .inr (.inr ⟨rfl, hc, by simp [hc]⟩)

/-- A complete candidate is the same candidate whatever follows it. -/
theorem candidate_append {t : Bytes} (u : Bytes) (h : frameComplete t = true) : candidate (t ++ u) = candidate t := by
  unfold candidate
  rw [frameComplete_append u h, h, receivedCrc_append u h, computedCrc_append u h,
    frameRecord_take (frameComplete_append u h), frameRecord_take h, frameRecord_append u h]

@[simp] theorem candidate_nil : candidate [] = .stop := rfl

/-! ## Skipping to the header -/

@[simp] theorem skipToHeader_cons_zero (b : Byte) (t : Bytes) :
    skipToHeader (b :: t) 0 = if b = HEADER then 0 else 1 + skipToHeader t 0 := by
  unfold skipToHeader
  by_cases h : b = HEADER <;> simp [h]
  omega

@[simp] theorem skipToHeader_nil (i : Nat) : skipToHeader [] i = i := by simp [skipToHeader]

theorem le_skipToHeader (buf : Bytes) (i : Nat) : i ≤ skipToHeader buf i := Nat.le_add_right _ _

theorem skipToHeader_le (buf : Bytes) {i : Nat} (h : i ≤ buf.length) : skipToHeader buf i ≤ buf.length := by
  have := ((buf.drop i).takeWhile_sublist fun b => b != HEADER).length_le
  simp only [List.length_drop] at this
  unfold skipToHeader
  omega

/-- Skipping looks only at the bytes from the cursor on. -/
theorem skipToHeader_append (pre buf : Bytes) (i : Nat) :
    skipToHeader (pre ++ buf) (pre.length + i) = pre.length + skipToHeader buf i := by
  unfold skipToHeader
  rw [List.drop_append, List.drop_eq_nil_of_le (by omega), List.nil_append, Nat.add_sub_cancel_left]
  omega

/-- Where skipping ends before the buffer does, a header stands. -/
theorem byteAt_skipToHeader (buf : Bytes) (i : Nat) (h : skipToHeader buf i < buf.length) :
    byteAt (buf.drop (skipToHeader buf i)) 0 = HEADER := by
  have key : ∀ t : Bytes, (t.takeWhile fun b => b != HEADER).length < t.length →
      byteAt (t.drop (t.takeWhile fun b => b != HEADER).length) 0 = HEADER := by
    intro t
    induction t with
    | nil => simp
    | cons b t ih =>
      intro ht
      by_cases hb : b = HEADER
      · simp [hb]
      · simp only [List.takeWhile_cons, bne_iff_ne, ne_eq, hb, not_false_eq_true, if_true, List.length_cons,
          List.drop_succ_cons] at ht ⊢
        exact ih (by omega)
  have hd := key (buf.drop i) (by unfold skipToHeader at h; simp only [List.length_drop]; omega)
  rwa [List.drop_drop] at hd

/-! ## One turn -/

/-- One turn of the loop, all of it: the cursor skips to the next header, or the end; there it stops, accepts, or discards. -/
theorem Scan.turn_cases (buf : Bytes) (c : Scan) :
    (frameComplete (buf.drop (skipToHeader buf c.i)) = false ∧
      c.turn buf = ({ c with i := skipToHeader buf c.i }, false)) ∨
    (frameComplete (buf.drop (skipToHeader buf c.i)) = true ∧
      receivedCrc (buf.drop (skipToHeader buf c.i)) = computedCrc (buf.drop (skipToHeader buf c.i)) ∧
      c.turn buf =
        ({ c with
            i := skipToHeader buf c.i + declaredLen (buf.drop (skipToHeader buf c.i))
            frames := c.frames ++ [frameRecord (buf.drop (skipToHeader buf c.i))] }, true)) ∨
    (frameComplete (buf.drop (skipToHeader buf c.i)) = true ∧
      receivedCrc (buf.drop (skipToHeader buf c.i)) ≠ computedCrc (buf.drop (skipToHeader buf c.i)) ∧
      c.turn buf = ({ c with i := skipToHeader buf c.i + 1, discards := c.discards + 1 }, true)) := by
  rcases candidate_cases (buf.drop (skipToHeader buf c.i)) with ⟨h1, h2⟩ | ⟨h1, h2, h3⟩ | ⟨h1, h2, h3⟩
  · exact .inl ⟨h1, by simp only [Scan.turn, h2]⟩
  · exact .inr (.inl ⟨h1, h2, by simp only [Scan.turn, h3]; rfl⟩)
  · exact .inr (.inr ⟨h1, h2, by simp only [Scan.turn, h3]⟩)

/-- A turn that goes on moves the cursor on, and no turn moves it past the end (R128). -/
theorem Scan.turn_progress (buf : Bytes) (c : Scan) (hc : c.i ≤ buf.length) :
    (c.turn buf).1.i ≤ buf.length ∧ ((c.turn buf).2 = true → c.i < (c.turn buf).1.i) := by
  have hle := le_skipToHeader buf c.i
  have hsk := skipToHeader_le buf hc
  rcases c.turn_cases buf with ⟨h1, h2⟩ | ⟨h1, -, h3⟩ | ⟨h1, -, h3⟩
  · simp [h2, hsk]
  all_goals
    rw [frameComplete_iff, List.length_drop] at h1
    have := declaredLen_ge (buf.drop (skipToHeader buf c.i))
    simp only [h3]
    omega

/-! ## The loop -/

/-- Frames and discards found before a loop begins stay in front of what it finds. -/
theorem Scan.loop_accumulates (buf : Bytes) (fuel i : Nat) (fs : List Frame) (d : Nat) :
    Scan.loop buf fuel { i := i, frames := fs, discards := d } =
      { i := (Scan.loop buf fuel { i := i, frames := [], discards := 0 }).i
        frames := fs ++ (Scan.loop buf fuel { i := i, frames := [], discards := 0 }).frames
        discards := d + (Scan.loop buf fuel { i := i, frames := [], discards := 0 }).discards } := by
  induction fuel generalizing i fs d with
  | zero => simp [Scan.loop]
  | succ fuel ih =>
    simp only [Scan.loop, Scan.turn]
    cases h : candidate (buf.drop (skipToHeader buf i)) with
    | stop => simp
    | accept f =>
      simp only
      rw [ih _ (fs ++ [f]) d, ih _ ([] ++ [f]) 0]
      simp
    | discard =>
      simp only
      rw [ih _ fs (d + 1), ih _ [] (0 + 1)]
      simp [Nat.add_assoc]

/-- Bytes before the cursor do not matter: they only shift it. -/
theorem Scan.loop_append_left (pre buf : Bytes) (fuel : Nat) (c : Scan) :
    Scan.loop (pre ++ buf) fuel { c with i := pre.length + c.i } =
      { Scan.loop buf fuel c with i := pre.length + (Scan.loop buf fuel c).i } := by
  induction fuel generalizing c with
  | zero => rfl
  | succ fuel ih =>
    have hd : (pre ++ buf).drop (pre.length + skipToHeader buf c.i) = buf.drop (skipToHeader buf c.i) := by
      rw [List.drop_append, List.drop_eq_nil_of_le (by omega), List.nil_append, Nat.add_sub_cancel_left]
    simp only [Scan.loop, Scan.turn, skipToHeader_append, hd]
    cases h : candidate (buf.drop (skipToHeader buf c.i)) with
    | stop => simp
    | accept f => simpa [Nat.add_assoc] using ih { i := skipToHeader buf c.i + f.frameLen, frames := c.frames ++ [f], discards := c.discards }
    | discard => simpa [Nat.add_assoc] using ih { i := skipToHeader buf c.i + 1, frames := c.frames, discards := c.discards + 1 }

/-- Any two bounds that leave a turn for each byte from the cursor on, and one more, give the same scan. -/
theorem Scan.loop_bound (buf : Bytes) (n m : Nat) (c : Scan) (hc : c.i ≤ buf.length) (hn : buf.length - c.i < n)
    (hm : buf.length - c.i < m) : Scan.loop buf n c = Scan.loop buf m c := by
  induction n generalizing m c with
  | zero => omega
  | succ n ih =>
    obtain ⟨m, rfl⟩ : ∃ m', m = m' + 1 := ⟨m - 1, by omega⟩
    have hp := c.turn_progress buf hc
    simp only [Scan.loop]
    rcases ht : c.turn buf with ⟨c', _ | _⟩
    · rfl
    · rw [ht] at hp
      have := hp.2 rfl
      exact ih m c' hp.1 (by simp only at *; omega) (by simp only at *; omega)

/-- One turn of a scan that begins at the head of the buffer, and then the scan of what is left. -/
theorem extractFrames_turn (buf : Bytes) :
    extractFrames buf =
      if (Scan.start.turn buf).2 then
        { i := (Scan.start.turn buf).1.i + (extractFrames (buf.drop (Scan.start.turn buf).1.i)).i
          frames := (Scan.start.turn buf).1.frames ++ (extractFrames (buf.drop (Scan.start.turn buf).1.i)).frames
          discards := (Scan.start.turn buf).1.discards + (extractFrames (buf.drop (Scan.start.turn buf).1.i)).discards }
      else (Scan.start.turn buf).1 := by
  have hp := Scan.start.turn_progress buf (Nat.zero_le _)
  conv_lhs => unfold extractFrames
  simp only [Scan.loop]
  rcases ht : Scan.start.turn buf with ⟨c', _ | _⟩
  · simp
  · rw [ht] at hp
    have h0 := hp.2 rfl
    have hle := hp.1
    simp only [Scan.start] at h0 hle
    simp only [if_true]
    have hsplit : buf = buf.take c'.i ++ buf.drop c'.i := (List.take_append_drop _ _).symm
    have hlen : (buf.take c'.i).length = c'.i := by simp [hle]
    have hshift := Scan.loop_append_left (buf.take c'.i) (buf.drop c'.i) ((buf.drop c'.i).length + 1) Scan.start
    rw [hlen, ← hsplit] at hshift
    rw [Scan.loop_accumulates buf _ c'.i c'.frames c'.discards,
      Scan.loop_bound buf _ ((buf.drop c'.i).length + 1) { i := c'.i, frames := [], discards := 0 } hle
        (by simp only; omega) (by simp only [List.length_drop]; omega)]
    have : ({ i := c'.i, frames := [], discards := 0 } : Scan) = { Scan.start with i := c'.i + Scan.start.i } := rfl
    rw [this, hshift]
    rfl

end Sys2Proof.Machine
end

