-- ==== Sys2Proof/Laws/State.lean ====
section
/-! SUPPORT. What each update of the state does to each field, so that no proof unfolds a record update. -/

namespace Sys2Proof.Machine

variable (s : State) (r : Reply) (e : BlockError) (v : CrcWord) (c : Bytes) (n : Nat) (q : Request)

@[simp] theorem State.respond_cfg : (s.respond r).cfg = s.cfg := rfl
@[simp] theorem State.respond_crc : (s.respond r).crc = s.crc := rfl
@[simp] theorem State.respond_buf : (s.respond r).buf = s.buf := rfl
@[simp] theorem State.respond_ovf : (s.respond r).ovf = s.ovf := rfl
@[simp] theorem State.respond_inputs : (s.respond r).inputs = s.inputs := rfl
@[simp] theorem State.respond_reply : (s.respond r).reply = some r := rfl

@[simp] theorem State.raise_cfg : (s.raise e).cfg = s.cfg := rfl
@[simp] theorem State.raise_crc : (s.raise e).crc = s.crc := rfl
@[simp] theorem State.raise_buf : (s.raise e).buf = s.buf := rfl
@[simp] theorem State.raise_ovf : (s.raise e).ovf = s.ovf := rfl
@[simp] theorem State.raise_inputs : (s.raise e).inputs = s.inputs := rfl
@[simp] theorem State.raise_reply : (s.raise e).reply = some (.error e) := rfl

@[simp] theorem State.setCrc_cfg : (s.setCrc v).cfg = s.cfg := rfl
@[simp] theorem State.setCrc_crc : (s.setCrc v).crc = v := rfl
@[simp] theorem State.setCrc_buf : (s.setCrc v).buf = s.buf := rfl
@[simp] theorem State.setCrc_ovf : (s.setCrc v).ovf = s.ovf := rfl
@[simp] theorem State.setCrc_inputs : (s.setCrc v).inputs = s.inputs := rfl
@[simp] theorem State.setCrc_reply : (s.setCrc v).reply = s.reply := rfl

@[simp] theorem State.push_cfg : (s.push c).cfg = s.cfg := rfl
@[simp] theorem State.push_crc : (s.push c).crc = s.crc := rfl
@[simp] theorem State.push_buf : (s.push c).buf = s.buf ++ c.take (acceptedCount s.cfg.cap s.buf.length c.length) := rfl
@[simp] theorem State.push_ovf : (s.push c).ovf = ovfAfterPush s.cfg.cap s.buf.length c.length s.ovf := rfl
@[simp] theorem State.push_inputs : (s.push c).inputs = s.inputs := rfl
@[simp] theorem State.push_reply : (s.push c).reply = s.reply := rfl

@[simp] theorem State.dropOldest_cfg : (s.dropOldest n).cfg = s.cfg := rfl
@[simp] theorem State.dropOldest_crc : (s.dropOldest n).crc = s.crc := rfl
@[simp] theorem State.dropOldest_buf : (s.dropOldest n).buf = s.buf.drop n := rfl
@[simp] theorem State.dropOldest_ovf : (s.dropOldest n).ovf = s.ovf := rfl
@[simp] theorem State.dropOldest_inputs : (s.dropOldest n).inputs = s.inputs := rfl
@[simp] theorem State.dropOldest_reply : (s.dropOldest n).reply = s.reply := rfl

@[simp] theorem State.clearBuf_cfg : s.clearBuf.cfg = s.cfg := rfl
@[simp] theorem State.clearBuf_crc : s.clearBuf.crc = s.crc := rfl
@[simp] theorem State.clearBuf_buf : s.clearBuf.buf = [] := rfl
@[simp] theorem State.clearBuf_ovf : s.clearBuf.ovf = false := rfl
@[simp] theorem State.clearBuf_inputs : s.clearBuf.inputs = s.inputs := rfl
@[simp] theorem State.clearBuf_reply : s.clearBuf.reply = s.reply := rfl

@[simp] theorem State.takeReset_cfg : s.takeReset.cfg = s.cfg := rfl
@[simp] theorem State.takeReset_crc : s.takeReset.crc = 0x0000 := rfl
@[simp] theorem State.takeReset_buf : s.takeReset.buf = [] := rfl
@[simp] theorem State.takeReset_ovf : s.takeReset.ovf = false := rfl
@[simp] theorem State.takeReset_inputs : s.takeReset.inputs = s.inputs := rfl
@[simp] theorem State.takeReset_reply : s.takeReset.reply = none := rfl

@[simp] theorem State.feedChunk_cfg : (s.feedChunk c).cfg = s.cfg := rfl
@[simp] theorem State.feedChunk_crc : (s.feedChunk c).crc = s.crc := rfl
@[simp] theorem State.feedChunk_inputs : (s.feedChunk c).inputs = s.inputs := rfl
@[simp] theorem State.feedChunk_ovf : (s.feedChunk c).ovf = (s.push c).ovf := rfl
@[simp] theorem State.feedChunk_buf :
    (s.feedChunk c).buf = (s.push c).buf.drop (extractFrames (s.push c).buf).i := rfl
@[simp] theorem State.feedChunk_reply :
    (s.feedChunk c).reply =
      some (.fed (extractFrames (s.push c).buf).frames (extractFrames (s.push c).buf).discards
        (acceptedCount s.cfg.cap s.buf.length c.length)) := rfl

@[simp] theorem State.present_inputs : (s.present q).inputs = .request q :: s.inputs := rfl
@[simp] theorem State.present_cfg : (s.present q).cfg = s.cfg := rfl
@[simp] theorem State.present_crc : (s.present q).crc = s.crc := rfl
@[simp] theorem State.present_buf : (s.present q).buf = s.buf := rfl
@[simp] theorem State.present_ovf : (s.present q).ovf = s.ovf := rfl

/-- The three ways an input can be taken: nothing waits, or the oldest input is taken and the others stay. -/
theorem State.takeInput_cases (s : State) :
    (s.inputs = [] ∧ s.takeInput = none) ∨
    ∃ x rest, s.inputs = x :: rest ∧ s.takeInput = some (x, { s with inputs := rest }) := by
  unfold State.takeInput
  rcases h : s.inputs with _ | ⟨x, rest⟩
  · exact .inl ⟨rfl, rfl⟩
  · exact .inr ⟨x, rest, rfl, rfl⟩

end Sys2Proof.Machine
end

