-- ==== Sys2Proof/Laws/Memory.lean ====
section
/-! SUPPORT. The reassembly buffer: every operation on it keeps it within the capacity, and what reads see afterwards. -/

namespace Sys2Proof.Machine

theorem Memory.wf_iff (cap : Option Nat) (m : Memory) : Memory.wf cap m = true ↔ ∀ c, cap = some c → m.length ≤ c := by
  cases cap <;> simp [Memory.wf]

/-- A shorter buffer is within the capacity if a longer one is. -/
theorem Memory.wf_of_length_le {cap : Option Nat} {m m' : Memory} (h : m'.length ≤ m.length) (hm : Memory.wf cap m = true) :
    Memory.wf cap m' = true := by
  rw [Memory.wf_iff] at *
  exact fun c hc => le_trans h (hm c hc)

@[simp] theorem Memory.wf_nil (cap : Option Nat) : Memory.wf cap [] = true := by
  cases cap <;> simp [Memory.wf]

theorem acceptedCount_le (cap : Option Nat) (fill len : Nat) : acceptedCount cap fill len ≤ len := by
  cases cap <;> simp [acceptedCount]

/-- All of a chunk is accepted when it fits. -/
theorem acceptedCount_of_room {cap : Option Nat} {fill len : Nat} (h : ∀ c, cap = some c → fill + len ≤ c) :
    acceptedCount cap fill len = len := by
  cases cap with
  | none => rfl
  | some c => have := h c rfl; simp only [acceptedCount]; omega

/-! What an instruction offers, what of it enters, and what leaves. -/

/-- Pushing what an instruction offers appends what enters. -/
@[simp] theorem State.push_offered_buf (s : State) (i : Instr) : (s.push (offered i)).buf = s.buf ++ accepted i s := rfl

theorem accepted_of_offered_nil {i : Instr} (s : State) (h : offered i = []) : accepted i s = [] := by
  simp [accepted, h]

/-- What leaves and what stays are, in this order, what was there and what entered. -/
theorem removed_append_rest (i : Instr) (s : State) :
    removed i s ++ (s.buf ++ accepted i s).drop (removedCount i s) = s.buf ++ accepted i s :=
  List.take_append_drop _ _

theorem State.hasRoom_iff (s : State) (len : Nat) :
    s.hasRoom len = true ↔ ∀ c, s.cfg.cap = some c → s.buf.length + len ≤ c := by
  unfold State.hasRoom
  cases s.cfg.cap <;> simp

/-- Appending what fits keeps the buffer within the capacity. -/
theorem State.wf_push (s : State) (chunk : Bytes) (h : s.wf = true) : (s.push chunk).wf = true := by
  unfold State.wf at *
  rw [Memory.wf_iff] at *
  intro c hc
  have := h c hc
  simp only [State.push_cfg] at hc
  simp only [State.push_buf, hc, acceptedCount, List.length_append, List.length_take]
  omega

/-- Removing the oldest bytes keeps the buffer within the capacity. -/
theorem State.wf_dropOldest (s : State) (n : Nat) (h : s.wf = true) : (s.dropOldest n).wf = true :=
  Memory.wf_of_length_le (by simp) h

theorem State.wf_clearBuf (s : State) : s.clearBuf.wf = true := Memory.wf_nil _

theorem State.wf_takeReset (s : State) : s.takeReset.wf = true := Memory.wf_nil _

theorem State.wf_respond (s : State) (r : Reply) : (s.respond r).wf = s.wf := rfl

theorem State.wf_raise (s : State) (e : BlockError) : (s.raise e).wf = s.wf := rfl

theorem State.wf_setCrc (s : State) (v : CrcWord) : (s.setCrc v).wf = s.wf := rfl

theorem State.wf_feedChunk (s : State) (chunk : Bytes) (h : s.wf = true) : (s.feedChunk chunk).wf = true :=
  (s.push chunk).wf_dropOldest _ (s.wf_push chunk h)

/-- After the oldest `n` bytes are gone, the byte that was at index `n + j` is at index `j` (R41). -/
theorem Memory.read_drop (m : Memory) (n j : Nat) : Memory.read (m.drop n) j = Memory.read m (n + j) := by
  simp [Memory.read]

/-- A byte that was in the buffer is still read at its index after an append. -/
theorem Memory.read_append_left (m added : Bytes) {j : Nat} (h : j < m.length) :
    Memory.read (m ++ added) j = Memory.read m j :=
  List.getElem?_append_left h

end Sys2Proof.Machine
end

