-- ==== Sys2Proof/Laws/Ops.lean ====
section
/-! SUPPORT. What the shared operations can do, said once: push, feed, the meanings of all instructions, one step. -/

namespace Sys2Proof.Machine

/-! ## Pushing -/

/-- A push either takes the whole chunk and leaves `OVF`, or takes a proper initial part that fills the buffer and sets `OVF`. -/
theorem State.push_cases (s : State) (chunk : Bytes) :
    s.push chunk = { s with buf := s.buf ++ chunk } ∨
    ∃ c k, s.cfg.cap = some c ∧ k = c - s.buf.length ∧ k < chunk.length ∧
      s.push chunk = { s with buf := s.buf ++ chunk.take k, ovf := true } := by
  cases hc : s.cfg.cap with
  | none => exact .inl (by simp [State.push, ovfAfterPush, acceptedCount, hc])
  | some c =>
    by_cases h : chunk.length ≤ c - s.buf.length
    · exact .inl (by simp [State.push, ovfAfterPush, acceptedCount, hc, h])
    · have hlt : c - s.buf.length < chunk.length := by omega
      exact .inr ⟨c, _, rfl, rfl, hlt, by simp [State.push, ovfAfterPush, acceptedCount, hc, Nat.min_eq_right hlt.le, hlt]⟩

/-- With room for all of it, a chunk is appended and nothing else changes. -/
theorem State.push_of_room {s : State} {chunk : Bytes} (h : s.hasRoom chunk.length = true) :
    s.push chunk = { s with buf := s.buf ++ chunk } := by
  have := acceptedCount_of_room ((State.hasRoom_iff s _).1 h)
  simp [State.push, this, ovfAfterPush]

/-- FEED with room for all of the chunk, as an equation. -/
theorem State.feedChunk_of_room {s : State} {chunk : Bytes} (h : s.hasRoom chunk.length = true) :
    s.feedChunk chunk =
      { s with
        buf := (s.buf ++ chunk).drop (extractFrames (s.buf ++ chunk)).i
        reply := some (.fed (extractFrames (s.buf ++ chunk)).frames (extractFrames (s.buf ++ chunk)).discards chunk.length) } := by
  simp only [State.feedChunk, State.push_of_room h, acceptedCount_of_room ((State.hasRoom_iff s _).1 h)]
  rfl

/-! ## Every meaning -/

/-- All that an instruction can do: answer only; write `CRC`; push; remove the oldest bytes; clear the buffer; feed. -/
theorem exec_cases {i : Instr} {s t : State} (h : exec i s = .next t) :
    (∃ r, t = s.respond r) ∨
    (∃ v r, writesCrc i = true ∧ t = (s.setCrc v).respond r) ∨
    (∃ c k, (i = .bufPush c ∨ ∃ b, i = .bufPushb b ∧ c = [b]) ∧ t = (s.push c).respond (.accepted k)) ∨
    (∃ n, i = .bufTrim n ∧ n ≤ s.buf.length ∧ t = (s.dropOldest n).respond .ok) ∨
    (i = .bufClear ∧ t = s.clearBuf.respond .ok) ∨
    (∃ c, writesBuf i = true ∧ removesBytes i = true ∧ writesOvf i = true ∧ i ≠ .bufClear ∧ t = s.feedChunk c) := by
  cases i <;>
    simp only [exec, execCrcClr, execCrcUpd, execCrcRd, execCrcBlk, execBuild, execParse, execExtract, execBufPushb, execBufPush,
      execBufTrim, execBufClear, execBufLen, execFeed, execReserved0, execReservedE, execReservedF, execFramePlain,
      execFrameAddr, Host.Outcome.next.injEq] at h <;> subst h
  case build => split <;> exact .inl ⟨_, rfl⟩
  case parse => split <;> exact .inl ⟨_, rfl⟩
  case bufPushb b => exact .inr (.inr (.inl ⟨[b], _, .inr ⟨b, rfl, rfl⟩, rfl⟩))
  case bufPush c => exact .inr (.inr (.inl ⟨c, _, .inl rfl, rfl⟩))
  case bufTrim n =>
    split
    · exact .inl ⟨_, rfl⟩
    · exact .inr (.inr (.inr (.inl ⟨n, rfl, by omega, rfl⟩)))
  case bufClear => exact .inr (.inr (.inr (.inr (.inl ⟨rfl, rfl⟩))))
  case crcClr => exact .inr (.inl ⟨_, _, rfl, rfl⟩)
  case crcUpd => exact .inr (.inl ⟨_, _, rfl, rfl⟩)
  case crcBlk => exact .inr (.inl ⟨_, _, rfl, rfl⟩)
  case feed c => exact .inr (.inr (.inr (.inr (.inr ⟨c, rfl, rfl, rfl, by simp, rfl⟩))))
  case framePlain => exact .inr (.inr (.inr (.inr (.inr ⟨_, rfl, rfl, rfl, by simp, rfl⟩))))
  case frameAddr => exact .inr (.inr (.inr (.inr (.inr ⟨_, rfl, rfl, rfl, by simp, rfl⟩))))
  all_goals exact .inl ⟨_, rfl⟩

/-! ## One step -/

/-- All that a step can do: nothing, when nothing waits; a reset; a decoded instruction; a chunk that is not one frame, which is fed. -/
theorem step_cases {s t : State} (h : step s = .next t) :
    (s.inputs = [] ∧ t = s) ∨
    (∃ rest, s.inputs = .resetEvent :: rest ∧ t = ({ s with inputs := rest } : State).takeReset) ∨
    (∃ r rest i, s.inputs = .request r :: rest ∧ decode r = .ok i ∧ exec i { s with inputs := rest } = .next t) ∨
    (∃ bytes rest why, s.inputs = .request (.chunk bytes) :: rest ∧ decode (.chunk bytes) = .error why ∧
      t = ({ s with inputs := rest } : State).feedChunk bytes) := by
  unfold step at h
  rcases s.takeInput_cases with ⟨hin, ht⟩ | ⟨x, rest, hin, ht⟩ <;> rw [ht] at h
  · exact .inl ⟨hin, by simpa using h.symm⟩
  rcases x with r | _
  · simp only at h
    cases hd : decode r with
    | ok i => exact .inr (.inr (.inl ⟨r, rest, i, hin, hd, by simpa [hd] using h⟩))
    | error why =>
      rw [hd] at h
      cases r with
      | op => simp [takeRejected] at h
      | chunk bytes => exact .inr (.inr (.inr ⟨bytes, rest, why, hin, hd, by simpa [takeRejected] using h.symm⟩))
  · exact .inr (.inl ⟨rest, hin, by simpa using h.symm⟩)

end Sys2Proof.Machine
end

