-- ==== Sys2Proof/Laws/PerInstr.lean ====
section
/-! SUPPORT. Facts about every instruction as syntax, one lemma per constructor. -/

namespace Sys2Proof.Laws.EncodedShape

open Sys2Proof Sys2Proof.Machine

/-- Two operand values have the same one of R74's five shapes. -/
def sameShape : Operands → Operands → Bool
  | .opNone, .opNone => true
  | .opByte _, .opByte _ => true
  | .opBytes _, .opBytes _ => true
  | .opNat _, .opNat _ => true
  | .opBuild _ _ _ _ _ _, .opBuild _ _ _ _ _ _ => true
  | _, _ => false

/-- The encoding of an instruction has the operand shape its operation code takes (R74); a frame's encoding begins with the header and is
no shorter than the shortest frame (R9, R60). -/
def Statement (i : Instr) : Prop :=
  match encode i with
  | .op code operands => sameShape (zeroOperands code) operands = true
  | .chunk f => byteAt f 0 = HEADER ∧ MIN_FRAME ≤ f.length

theorem crcClr : Statement .crcClr := rfl
theorem crcUpd (b : Byte) : Statement (.crcUpd b) := rfl
theorem crcRd : Statement .crcRd := rfl
theorem crcBlk (data : Bytes) : Statement (.crcBlk data) := rfl
theorem build (category code : Byte) (payload : Bytes) (rs485 notify : Bool) (addr : Byte) :
    Statement (.build category code payload rs485 notify addr) := rfl
theorem parse (raw : Bytes) : Statement (.parse raw) := rfl
theorem extract : Statement .extract := rfl
theorem bufPushb (b : Byte) : Statement (.bufPushb b) := rfl
theorem bufPush (chunk : Bytes) : Statement (.bufPush chunk) := rfl
theorem bufTrim (n : Nat) : Statement (.bufTrim n) := rfl
theorem bufClear : Statement .bufClear := rfl
theorem bufLen : Statement .bufLen := rfl
theorem feed (chunk : Bytes) : Statement (.feed chunk) := rfl
theorem reserved0 : Statement .reserved0 := rfl
theorem reservedE : Statement .reservedE := rfl
theorem reservedF : Statement .reservedF := rfl

theorem framePlain (protoType protoVer category code : Byte) (payload : Bytes) (crc : CrcWord) :
    Statement (.framePlain protoType protoVer category code payload crc) := by
  refine ⟨rfl, ?_⟩
  rw [wireFrame_length, MIN_FRAME]
  omega

theorem frameAddr (protoType protoVer category code addr : Byte) (payload : Bytes) (crc : CrcWord) :
    Statement (.frameAddr protoType protoVer category code addr payload crc) := by
  refine ⟨rfl, ?_⟩
  rw [wireFrame_length, MIN_FRAME]
  omega

end Sys2Proof.Laws.EncodedShape
end

