-- ==== Sys2Proof/Tests/Slice0.lean ====
section
/-! SUPPORT. The model's own tests. Expected values are those of spec/95_test_vectors.md (the vector is named at each test) or of the
worked examples of the rules; witnesses show that the hypotheses of the statements can be met. -/

namespace Sys2Proof.Tests

set_option Elab.async false

open Sys2Proof Sys2Proof.Machine

/-! ## Helpers -/

/-- The configuration of the test vectors: type 0x00, version 0x01, the capacity as given. -/
def st (buf : Bytes) (cap : Option Nat := none) (ovf : Bool := false) : State :=
  { cfg := { protoType := 0x00, protoVer := 0x01, cap := cap }, crc := 0x0000, buf := buf, ovf := ovf, inputs := [], reply := none }

/-- What one instruction hands back. -/
def replyOf (i : Instr) (s : State) : Option Reply :=
  match exec i s with
  | .next t => t.reply
  | _ => none

/-- The buffer, the flag and the accumulator after one instruction. -/
def leaves (i : Instr) (s : State) : Option (Bytes × Bool × CrcWord) :=
  match exec i s with
  | .next t => some (t.buf, t.ovf, t.crc)
  | _ => none

/-- The instruction a request decodes to. -/
def decoded (r : Request) : Option Instr :=
  match decode r with
  | .ok i => some i
  | .error _ => none

/-- The reason a request is rejected. -/
def rejected (r : Request) : Option Reject :=
  match decode r with
  | .ok _ => none
  | .error why => some why

/-- The frames F1, F2, F3, F7 of spec/95_test_vectors.md, and F1 with its last byte damaged. -/
def F1 : Bytes := [0x5A, 0x00, 0x01, 0x01, 0x00, 0x00, 0x00, 0x14, 0x78]
def F2 : Bytes := [0x5A, 0x00, 0x01, 0x02, 0x10, 0x00, 0x05, 0x00, 0x00, 0x00, 0x01, 0x01, 0xF2, 0xB2]
def F3 : Bytes := [0x5A, 0x00, 0x01, 0x22, 0xFF, 0x07, 0x00, 0x00, 0x7B, 0xB4]
def F7 : Bytes := [0x5A, 0x00, 0x01, 0x02, 0x10, 0x00, 0x02, 0x5A, 0x5A, 0xAB, 0x61]
def damagedF1 : Bytes := [0x5A, 0x00, 0x01, 0x01, 0x00, 0x00, 0x00, 0x14, 0x79]

/-- The records of F1, F2 and F3 (vectors P1 to P3). -/
def R1 : Frame :=
  { cw := 0x00010100, protoType := 0x00, protoVer := 0x01, rs485 := false, notify := false, category := 0x01, code := 0x00,
    addr := none, length := 0, payload := [], crc := 0x1478, frameLen := 9 }
def R2 : Frame :=
  { cw := 0x00010210, protoType := 0x00, protoVer := 0x01, rs485 := false, notify := false, category := 0x02, code := 0x10,
    addr := none, length := 5, payload := [0x00, 0x00, 0x00, 0x01, 0x01], crc := 0xF2B2, frameLen := 14 }
def R3 : Frame :=
  { cw := 0x000122FF, protoType := 0x00, protoVer := 0x01, rs485 := true, notify := false, category := 0x22, code := 0xFF,
    addr := some 0x07, length := 0, payload := [], crc := 0x7BB4, frameLen := 10 }

/-! ## WellFormed refuses -/

theorem test_plain_frame_with_bit_13_is_ill_formed : WellFormed (.framePlain 0x00 0x01 0x22 0xFF [] 0x7BB4) = false := by decide
theorem test_addr_frame_without_bit_13_is_ill_formed : WellFormed (.frameAddr 0x00 0x01 0x02 0xFF 0x07 [] 0x7BB4) = false := by decide
theorem long_payload_does_not_fit : payloadFits (List.replicate 65536 0x00) = false := by
  unfold payloadFits
  rw [List.length_replicate]
  rfl
theorem test_plain_frame_with_long_payload_is_ill_formed :
    WellFormed (.framePlain 0x00 0x01 0x02 0xFF (List.replicate 65536 0x00) 0x0000) = false := by
  rw [WellFormed, long_payload_does_not_fit]
  rfl
theorem test_addr_frame_with_long_payload_is_ill_formed :
    WellFormed (.frameAddr 0x00 0x01 0x22 0xFF 0x07 (List.replicate 65536 0x00) 0x0000) = false := by
  rw [WellFormed, long_payload_does_not_fit]
  rfl

/-! ## Decoding: every row, its code written out from spec/30_encoding.md R74, R75, or its bytes from R61, R62 -/

theorem test_decode_crcClr : decoded (.op 0b0001 .opNone) = some .crcClr := by decide
theorem test_decode_crcUpd : decoded (.op 0b0010 (.opByte 0x31)) = some (.crcUpd 0x31) := by decide
theorem test_decode_crcRd : decoded (.op 0b0011 .opNone) = some .crcRd := by decide
theorem test_decode_crcBlk : decoded (.op 0b0100 (.opBytes [0x31, 0x32])) = some (.crcBlk [0x31, 0x32]) := by decide
theorem test_decode_build :
    decoded (.op 0b0101 (.opBuild 0x02 0xFF none (some true) none (some 0x07))) = some (.build 0x02 0xFF [] true false 0x07) := by
  decide
theorem test_decode_parse : decoded (.op 0b0110 (.opBytes [0x5A])) = some (.parse [0x5A]) := by decide
theorem test_decode_extract : decoded (.op 0b0111 .opNone) = some .extract := by decide
theorem test_decode_bufPushb : decoded (.op 0b1000 (.opByte 0x5A)) = some (.bufPushb 0x5A) := by decide
theorem test_decode_bufPush : decoded (.op 0b1001 (.opBytes [0x5A, 0x00])) = some (.bufPush [0x5A, 0x00]) := by decide
theorem test_decode_bufTrim : decoded (.op 0b1010 (.opNat 70000)) = some (.bufTrim 70000) := by decide
theorem test_decode_bufClear : decoded (.op 0b1011 .opNone) = some .bufClear := by decide
theorem test_decode_bufLen : decoded (.op 0b1100 .opNone) = some .bufLen := by decide
theorem test_decode_feed : decoded (.op 0b1101 (.opBytes [0xA5])) = some (.feed [0xA5]) := by decide
theorem test_decode_reserved0 : decoded (.op 0b0000 (.opByte 0x31)) = some .reserved0 := by decide
theorem test_decode_reservedE : decoded (.op 0b1110 .opNone) = some .reservedE := by decide
theorem test_decode_reservedF : decoded (.op 0b1111 (.opNat 1)) = some .reservedF := by decide
theorem test_decode_framePlain : decoded (.chunk F2) = some (.framePlain 0x00 0x01 0x02 0x10 [0x00, 0x00, 0x00, 0x01, 0x01] 0xF2B2) := by
  decide +kernel
theorem test_decode_frameAddr : decoded (.chunk F3) = some (.frameAddr 0x00 0x01 0x22 0xFF 0x07 [] 0x7BB4) := by decide +kernel

/-! Rejections, each by its name. -/

theorem test_reject_operand_shape : rejected (.op 0x2 .opNone) = some (.operandShape 0x2) := by decide
theorem test_reject_no_header : rejected (.chunk [0x5B, 0x00]) = some .noHeader ∧ rejected (.chunk []) = some .noHeader := by decide
theorem test_reject_incomplete_frame : rejected (.chunk (F2.take 13)) = some .incompleteFrame := by decide +kernel
theorem test_reject_bytes_after_frame : rejected (.chunk (F1 ++ [0xFF])) = some .bytesAfterFrame := by decide +kernel

/-- Every table word, placed for fetch after reset, is run by the very next step. -/
theorem test_table_words_run_after_reset :
    (List.range 16).all (fun w => match step (State.reset.withFetchWord 8 w) with | .next t => t.reply.isSome | _ => false) = true := by
  decide +kernel
theorem test_frame_words_run_after_reset :
    [0x0000005A, 0x2000005A, 0x5A00000000, 0x5A00002000].all (fun w =>
      match step (State.reset.withFetchWord 40 w) with | .next t => t.reply.isSome | _ => false) = true := by
  decide +kernel
theorem test_frame_words_decode :
    decodeTableWord 40 0x0000005A = some (.framePlain 0x00 0x00 0x00 0x00 [] 0x0000) ∧
    decodeTableWord 40 0x2000005A = some (.frameAddr 0x00 0x00 0x20 0x00 0x00 [] 0x0000) ∧
    decodeTableWord 40 0x5A00002000 = some (.frameAddr 0x00 0x00 0x20 0x00 0x00 [] 0x0000) := by
  decide +kernel

/-! ## The CRC unit (vectors K4, K11, K17, the traces of 2.1, program 1) -/

theorem test_crcClr : leaves .crcClr { st [] with crc := 0x80A5 } = some ([], false, 0x0000) := by decide
theorem test_crcUpd : leaves (.crcUpd 0x31) (st []) = some ([], false, 0x80A5) := by decide +kernel
theorem test_crcUpd_ones : leaves (.crcUpd 0x00) { st [] with crc := 0xFFFF } = some ([], false, 0xFD02) := by decide +kernel
theorem test_crcRd : replyOf .crcRd { st [] with crc := 0xFEE8 } = some (.value 0xFEE8) := by decide
theorem test_crcBlk :
    replyOf (.crcBlk [0x31, 0x32, 0x33, 0x34, 0x35, 0x36, 0x37, 0x38, 0x39]) (st []) = some (.value 0xFEE8) := by decide +kernel
theorem test_crcBlk_residue : leaves (.crcBlk [0x00, 0x01, 0x01, 0x00, 0x00, 0x00, 0x14, 0x78]) { st [] with crc := 0x1234 } =
    some ([], false, 0x0000) := by decide +kernel

/-! ## BUILD (vectors B3, B6) -/

theorem test_build_addr : replyOf (.build 0x02 0xFF [] true false 0x07) (st []) = some (.bytes F3) := by decide +kernel
theorem test_build_category_aliases_rs485 : replyOf (.build 0x20 0x00 [] false false 0x09) (st []) =
    some (.bytes [0x5A, 0x00, 0x01, 0x20, 0x00, 0x09, 0x00, 0x00, 0x77, 0xB4]) := by decide +kernel

/-! ## PARSE (vectors P3, P22) -/

theorem test_parse_addr : replyOf (.parse F3) (st []) = some (.frame R3) := by decide +kernel
theorem test_parse_too_short_wins : replyOf (.parse [0x00, 0x00, 0x00]) (st []) = some (.error (.tooShort 3)) := by decide +kernel

/-! ## EXTRACT (vectors E17, E12) -/

theorem test_extract_discard_accept_stop :
    replyOf .extract (st ([0xFF] ++ damagedF1 ++ F1 ++ [0x5A, 0x00])) = some (.extracted [R1] 19 1) := by decide +kernel
theorem test_extract_blocked :
    replyOf .extract (st ([0x5A, 0x00, 0x01, 0x02, 0x10, 0x00, 0x02, 0x5A, 0x5A, 0x2B, 0x61] ++ F1)) = some (.extracted [] 7 1) := by
  decide +kernel

/-! ## The buffer (vectors X9, X6, X2, X3, X5, X7, X1, X8) -/

theorem test_bufPushb_full : leaves (.bufPushb 0x00) (st [0x5A] (some 1)) = some ([0x5A], true, 0x0000) := by decide
theorem test_bufPushb : leaves (.bufPushb 0x01) (st [0x5A, 0x00]) = some ([0x5A, 0x00, 0x01], false, 0x0000) := by decide
theorem test_bufPush_overflow : leaves (.bufPush F1) (st F2 (some 16)) = some (F2 ++ [0x5A, 0x00], true, 0x0000) := by decide
theorem test_bufPush_count : replyOf (.bufPush F1) (st F2 (some 16)) = some (.accepted 2) := by decide
theorem test_bufTrim : leaves (.bufTrim 1) (st [0xFF, 0x5A, 0x00]) = some ([0x5A, 0x00], false, 0x0000) := by decide
theorem test_bufTrim_range : replyOf (.bufTrim 3) (st [0x5A, 0x00]) = some (.error (.trimRange 3 2)) := by decide
theorem test_bufClear : leaves .bufClear { st [0x5A, 0x00] (some 16) true with crc := 0x1478 } = some ([], false, 0x1478) := by decide
theorem test_bufLen : replyOf .bufLen (st [0x5A, 0x00] (some 16) true) = some (.level 2 true) := by decide
theorem test_feed_second_half : replyOf (.feed [0x00, 0x01, 0x01, 0xF2, 0xB2, 0x5A]) (st (F2.take 9)) = some (.fed [R2] 0 6) := by
  decide +kernel
theorem test_feed_stuck : leaves (.feed F1) (st [0x5A, 0x00] (some 16) true) = some ([0x5A, 0x00] ++ F1, true, 0x0000) := by
  decide +kernel

/-! ## Reserved codes and arriving frames (R75; F1, F3 as chunks) -/

theorem test_reserved0 : replyOf .reserved0 (st []) = some (.error (.illegalOp 0x0)) := by decide
theorem test_reservedE : replyOf .reservedE (st []) = some (.error (.illegalOp 0xE)) := by decide
theorem test_reservedF : replyOf .reservedF (st []) = some (.error (.illegalOp 0xF)) := by decide
theorem test_framePlain : replyOf (.framePlain 0x00 0x01 0x01 0x00 [] 0x1478) (st []) = some (.fed [R1] 0 9) := by decide +kernel
theorem test_framePlain_damaged : replyOf (.framePlain 0x00 0x01 0x01 0x00 [] 0x1479) (st []) = some (.fed [] 1 9) := by
  decide +kernel
theorem test_frameAddr : replyOf (.frameAddr 0x00 0x01 0x22 0xFF 0x07 [] 0x7BB4) (st []) = some (.fed [R3] 0 10) := by
  decide +kernel

/-- The example of R76, its operands given in full. -/
theorem test_written_form : String.ofList (written (.bufTrim 19)) = "BUF.TRIM 19" ∧
    String.ofList (written (.crcUpd 0x5A)) = "CRC.UPD 0x5A" := by decide +kernel

/-! ## Witnesses: the hypotheses of each statement met together -/

theorem witness_ResetEventReinitialises : ({ st F1 with inputs := [.resetEvent] } : State).inputs = .resetEvent :: [] := rfl

theorem witness_StepRunsDecodedInstruction :
    ({ st F1 with inputs := [.request (.op 0x1 .opNone)] } : State).inputs = .request (.op 0x1 .opNone) :: [] ∧
      decode (.op 0x1 .opNone) = .ok .crcClr := ⟨rfl, rfl⟩

theorem witness_StepWithoutInstruction :
    (st F1).inputs = [] ∧
    (({ st F1 with inputs := [.request (.chunk [0x00])] } : State).inputs = .request (.chunk [0x00]) :: [] ∧
      decode (.chunk [0x00]) = .error .noHeader) ∧
    (({ st F1 with inputs := [.request (.op 0x1 (.opByte 0x00))] } : State).inputs = .request (.op 0x1 (.opByte 0x00)) :: [] ∧
      decode (.op 0x1 (.opByte 0x00)) = .error (.operandShape 0x1)) := ⟨rfl, ⟨rfl, rfl⟩, rfl, rfl⟩

theorem witness_DecodeEncodeRoundTrip : WellFormed (.frameAddr 0x00 0x01 0x22 0xFF 0x07 [0x5A] 0xFFFF) = true := by decide

theorem witness_DecodedChunkIsItsEncoding : decode (.chunk F1) = .ok (.framePlain 0x00 0x01 0x01 0x00 [] 0x1478) := by rfl

/-- At the shortest strings that decide the address size and the length. -/
theorem witness_FrameLengthFromFirstBytes :
    (5 ≤ (F3.take 5).length ∧ (F3.take 5).take 5 = F3.take 5) ∧
    (7 + frameAddrSize (F3.take 8) ≤ (F3.take 8).length ∧
      (F3.take 8).take (7 + frameAddrSize (F3.take 8)) = F3.take (7 + frameAddrSize (F3.take 8))) := by decide +kernel

theorem witness_CrcIsLinear : ([0x12, 0x34] : Bytes).length = ([0x0F, 0x0F] : Bytes).length := rfl

theorem witness_CrcSeesEverySingleBitFlip : 0 < ([0x00] : Bytes).length ∧ 7 < 8 := by decide

theorem witness_CrcStreams : ({ st [] with crc := crc16 [0x31] } : State).crc = crc16 [0x31] := rfl

/-- The longest payload BUILD takes, for BuildAnswersWireFrame, BuildControlWordBits and BuildParseRoundTrip. -/
theorem witness_BuildAnswersWireFrame : (List.replicate 65535 (0x00 : Byte)).length ≤ 65535 := List.length_replicate.le
/-- Both values of bit 13 in a built frame. -/
theorem witness_BuildAnswersWireFrame_formats : (be32At F1 1).getLsbD 13 = false ∧ (be32At F3 1).getLsbD 13 = true := by decide +kernel
theorem witness_BuildControlWordBits : ([] : Bytes).length ≤ 65535 := by decide
theorem witness_BuildParseRoundTrip : ([0x5A, 0x5A] : Bytes).length ≤ 65535 := by decide
theorem witness_BuildRefusesLongPayload : 65535 < (List.replicate 65536 (0x00 : Byte)).length := by
  rw [List.length_replicate]
  decide

theorem parse_F1 : parseFrame F1 = .ok R1 := by decide +kernel
theorem parse_F2 : parseFrame F2 = .ok R2 := by decide +kernel

theorem witness_ParseIgnoresBytesAfterFrame : parseFrame F1 = .ok R1 := parse_F1

theorem witness_ExtractAnswersScan : (st []).buf = [] := rfl
theorem witness_ScanSkipsNonHeader : (0x5B : Byte) ≠ 0x5A := by decide
theorem witness_ScanDiscardResumesAfterHeader :
    byteAt damagedF1 0 = 0x5A ∧ frameComplete damagedF1 = true ∧ receivedCrc damagedF1 ≠ computedCrc damagedF1 := by decide +kernel
theorem witness_ScanAcceptsValidFrame : parseFrame F1 = .ok R1 ∧ R1.frameLen = F1.length := ⟨parse_F1, rfl⟩
/-- One string for each of the three ways a candidate is incomplete, each a byte short. -/
theorem witness_ScanStopsAtIncompleteCandidate :
    (byteAt (F3.take 4) 0 = 0x5A ∧ (F3.take 4).length < 5) ∧
    (byteAt (F3.take 7) 0 = 0x5A ∧ (F3.take 7).length < 7 + frameAddrSize (F3.take 7)) ∧
    (byteAt (F3.take 9) 0 = 0x5A ∧ (F3.take 9).length < declaredLen (F3.take 9)) := by decide +kernel
theorem witness_ConsumedEndsAtIncompleteCandidate : (extractFrames [0x00, 0x5A]).i < ([0x00, 0x5A] : Bytes).length := by decide +kernel
/-- An instruction that adds a byte, one that removes one, and the one byte entered and left over both (FirstInFirstOut). -/
theorem witness_FirstInFirstOut :
    exec (.bufPushb 0x01) (st [0x00]) = .next { st [0x00, 0x01] with reply := some (.accepted 1) } ∧
    accepted (.bufPushb 0x01) (st [0x00]) = [0x01] ∧
    exec (.bufTrim 1) (st [0x00, 0x01]) = .next { st [0x01] with reply := some .ok } ∧ removed (.bufTrim 1) (st [0x00, 0x01]) = [0x00] ∧
    runStream [.bufPushb 0x01, .bufTrim 1] (st [0x00]) = some ([0x01], [0x00], { st [0x01] with reply := some .ok }) :=
  ⟨rfl, rfl, rfl, rfl, rfl⟩
theorem witness_TwoFramesBackToBack :
    parseFrame F1 = .ok R1 ∧ R1.frameLen = F1.length ∧ parseFrame F2 = .ok R2 ∧ R2.frameLen = F2.length ∧
      (st (F1 ++ F2)).buf = F1 ++ F2 := ⟨parse_F1, rfl, parse_F2, rfl, rfl⟩
/-- A damaged frame with no 0x5A behind its header, and one whose 0x5A at index 7 is a complete candidate that fails its own CRC. -/
def damagedInner : Bytes :=
  [0x5A, 0x00, 0x01, 0x02, 0x10, 0x00, 0x09, 0x5A, 0x00, 0x00, 0x00, 0x00, 0x00, 0x00, 0x00, 0x01, 0xFF, 0xFF]
theorem witness_DamagedFrameThenValidFrame :
    byteAt damagedF1 0 = 0x5A ∧ declaredLen damagedF1 = damagedF1.length ∧ receivedCrc damagedF1 ≠ computedCrc damagedF1 ∧
    (∀ j, 1 ≤ j → j < damagedF1.length → byteAt damagedF1 j = 0x5A → frameComplete ((damagedF1 ++ F2).drop j) = true ∧
      receivedCrc ((damagedF1 ++ F2).drop j) ≠ computedCrc ((damagedF1 ++ F2).drop j)) ∧
    parseFrame F2 = .ok R2 ∧ R2.frameLen = F2.length ∧ (st (damagedF1 ++ F2)).buf = damagedF1 ++ F2 := by
  have key : ∀ j < damagedF1.length, 1 ≤ j → byteAt damagedF1 j = 0x5A → frameComplete ((damagedF1 ++ F2).drop j) = true ∧
      receivedCrc ((damagedF1 ++ F2).drop j) ≠ computedCrc ((damagedF1 ++ F2).drop j) := by decide +kernel
  exact ⟨rfl, rfl, by decide +kernel, fun j h1 h2 => key j h2 h1, parse_F2, rfl, rfl⟩
theorem witness_DamagedFrameThenValidFrame_inner :
    byteAt damagedInner 0 = 0x5A ∧ declaredLen damagedInner = damagedInner.length ∧ receivedCrc damagedInner ≠ computedCrc damagedInner ∧
    (∀ j, 1 ≤ j → j < damagedInner.length → byteAt damagedInner j = 0x5A → frameComplete ((damagedInner ++ F2).drop j) = true ∧
      receivedCrc ((damagedInner ++ F2).drop j) ≠ computedCrc ((damagedInner ++ F2).drop j)) ∧
    parseFrame F2 = .ok R2 ∧ R2.frameLen = F2.length ∧ (st (damagedInner ++ F2)).buf = damagedInner ++ F2 ∧ byteAt damagedInner 7 = 0x5A := by
  have key : ∀ j < damagedInner.length, 1 ≤ j → byteAt damagedInner j = 0x5A → frameComplete ((damagedInner ++ F2).drop j) = true ∧
      receivedCrc ((damagedInner ++ F2).drop j) ≠ computedCrc ((damagedInner ++ F2).drop j) := by decide +kernel
  exact ⟨rfl, rfl, by decide +kernel, fun j h1 h2 => key j h2 h1, parse_F2, rfl, rfl, rfl⟩
theorem witness_ReadOnlyOperationsRepeat : readOnly .extract = true := rfl

/-- Room without a bound, room for exactly one byte more, and no room. -/
theorem witness_PushByteAppendsOrOverflows :
    (st [0x5A]).cfg.cap = none ∧ ((st [0x5A] (some 2)).cfg.cap = some 2 ∧ (st [0x5A] (some 2)).buf.length < 2) ∧
    ((st [0x5A] (some 1)).cfg.cap = some 1 ∧ 1 ≤ (st [0x5A] (some 1)).buf.length) := by decide
theorem witness_PushKeepsWhatFits :
    (st [0x5A]).cfg.cap = none ∧ (st [0x5A] (some 1)).cfg.cap = some 1 ∧ 0 < (st [0x5A]).buf.length := by decide
/-- Trimming all of the buffer, and one byte more. -/
theorem witness_TrimRemovesOldest : 2 ≤ (st [0x5A, 0x00]).buf.length ∧ (st [0x5A, 0x00]).buf.length < 3 := by decide
theorem witness_ChunkingDoesNotMatter :
    [F1.take 3, F1.drop 3, F2] ≠ [] ∧ (st [] (some 23)).hasRoom [F1.take 3, F1.drop 3, F2].flatten.length = true := by decide
theorem witness_SplitFrameReturnedOnce :
    parseFrame ([F1.take 3, F1.drop 3 |>.take 2].flatten ++ F1.drop 5) = .ok R1 ∧
    R1.frameLen = ([F1.take 3, F1.drop 3 |>.take 2].flatten ++ F1.drop 5).length ∧ F1.drop 5 ≠ [] ∧ (st [] (some 9)).buf = [] ∧
    (st [] (some 9)).hasRoom ([F1.take 3, F1.drop 3 |>.take 2].flatten ++ F1.drop 5).length = true :=
  ⟨by decide +kernel, by decide, by decide, rfl, by decide⟩
/-- Vector X8: `5A 00` left in front of F1, CAP = 16. -/
theorem witness_OversizedCandidateIsStuck : (st ([0x5A, 0x00] ++ F1) (some 16) true).stuck = true := by decide +kernel

theorem witness_FrameArrivalIsFeed :
    WellFormed (.framePlain 0x00 0x01 0x02 0x10 [0x5A] 0xFFFF) = true ∧
    WellFormed (.frameAddr 0x00 0x01 0x22 0x10 0x07 [0x5A] 0xFFFF) = true := by decide
theorem witness_CleanFrameArrives :
    (WellFormed (.framePlain 0x00 0x01 0x01 0x00 [] (crc16 ([0x00, 0x01, 0x01, 0x00] ++ be16 (BitVec.ofNat 16 0) ++ []))) = true ∧
      (st [] (some 9)).buf = [] ∧ (st [] (some 9)).hasRoom (9 + 0) = true) ∧
    (WellFormed (.frameAddr 0x00 0x01 0x22 0xFF 0x07 []
        (crc16 ([0x00, 0x01, 0x22, 0xFF, 0x07] ++ be16 (BitVec.ofNat 16 0) ++ []))) = true ∧
      (st [] (some 10)).buf = [] ∧ (st [] (some 10)).hasRoom (10 + 0) = true) := ⟨⟨rfl, rfl, rfl⟩, rfl, rfl, rfl⟩

theorem witness_OnlyListedInstructionsWrite :
    exec .bufLen (st [0x5A]) = .next { st [0x5A] with reply := some (.level 1 false) } ∧
    writesCrc .bufLen = false ∧ writesBuf .bufLen = false ∧ writesOvf .bufLen = false := ⟨rfl, rfl, rfl, rfl⟩
/-- An instruction that does not write the buffer, one that removes from it, and a step that removes. -/
theorem witness_BufferGrowsAtTailShrinksAtHead :
    (exec .bufLen (st [0x5A] (some 1)) = .next { st [0x5A] (some 1) with reply := some (.level 1 false) } ∧
      (st [0x5A] (some 1)).wf = true ∧ removesBytes .bufLen = false ∧ writesBuf .bufLen = false) ∧
    (exec (.feed [0x00]) (st []) = .next { st [] with reply := some (.fed [] 0 1) } ∧ removed (.feed [0x00]) (st []) = [0x00]) ∧
    step { st [0x5A] with inputs := [.request (.op 0xB .opNone)] } = .next { st [] with reply := some .ok } :=
  ⟨⟨rfl, rfl, rfl, rfl⟩, ⟨rfl, rfl⟩, rfl⟩
theorem witness_StepKeepsBufferWithinCapacity : (st [0x5A] (some 1)).wf = true ∧ step (st [0x5A] (some 1)) = .next (st [0x5A] (some 1)) :=
  ⟨rfl, rfl⟩
theorem witness_OverflowFlagIsSticky :
    (exec (.bufTrim 0) (st [] (some 1) true) = .next { st [] (some 1) true with reply := some .ok } ∧ Instr.bufTrim 0 ≠ .bufClear ∧
      (st [] (some 1) true).ovf = true) ∧
    (exec (.bufTrim 0) (st []) = .next { st [] with reply := some .ok } ∧ (st []).cfg.cap = none ∧ (st []).ovf = false) ∧
    (step { st [] (some 1) true with inputs := [.resetEvent] } = .next (st [] (some 1)) ∧ (st [] (some 1)).ovf = false) :=
  ⟨⟨rfl, by decide, rfl⟩, ⟨rfl, rfl, rfl⟩, rfl, rfl⟩
/-- For ErrorsChangeNoState and ErrorsComeFromTheirOperations. -/
theorem witness_ErrorsChangeNoState :
    exec (.bufTrim 1) (st []) = .next { st [] with reply := some (.error (.trimRange 1 0)) } ∧
    ({ st [] with reply := some (.error (.trimRange 1 0)) } : State).reply = some (.error (.trimRange 1 0)) := ⟨rfl, rfl⟩
theorem witness_ErrorsComeFromTheirOperations :
    exec (.parse []) (st []) = .next { st [] with reply := some (.error (.tooShort 0)) } ∧
    ({ st [] with reply := some (.error (.tooShort 0)) } : State).reply = some (.error (.tooShort 0)) := ⟨rfl, rfl⟩
theorem witness_InstancesShareNothing :
    1 ≠ 0 ∧ ([st F1, st F2] : System)[0]? = some (st F1) ∧ step (st F1) = .next (st F1) := ⟨by decide, rfl, rfl⟩

end Sys2Proof.Tests
end

section
/-! The CRC operations one after another (spec/40_crc.md R91 to R93): the rules for runs of CRC.UPD that end in a CRC.RD, and the
obligations about CRC.CLR and CRC.RD. -/

namespace Sys2Proof.Machine

/-! ## One operation -/

@[simp] theorem exec_crcClr (s : State) : exec .crcClr s = .next ((s.setCrc INIT).respond .ok) := rfl

@[simp] theorem exec_crcUpd (b : Byte) (s : State) : exec (.crcUpd b) s = .next ((s.setCrc (crcStep s.crc b)).respond .ok) := rfl

@[simp] theorem exec_crcRd (s : State) : exec .crcRd s = .next (s.respond (.value s.crc)) := rfl

/-! ## Operations one after another -/

/-- A run begins with its first operation, and goes on from the state that one leaves. -/
theorem execAll_cons_of_next {i : Instr} {s t : State} (rest : List Instr) (h : exec i s = .next t) :
    execAll (i :: rest) s = execAll rest t := by
  simp only [execAll, h]

/-! ## Runs of CRC operations -/

/-- What updates followed by a CRC.RD leave: the accumulator folded over the bytes, and answered. The CRC.RD overwrites the replies
of the updates, so that the same equation holds for no bytes at all. -/
def State.readAfter (data : Bytes) (s : State) : State :=
  (s.setCrc (crcFold s.crc data)).respond (.value (crcFold s.crc data))

/-- One byte taken by CRC.UPD is the first byte of the fold. -/
theorem State.readAfter_updated (b : Byte) (data : Bytes) (s : State) :
    ((s.setCrc (crcStep s.crc b)).respond .ok).readAfter data = s.readAfter (b :: data) := rfl

/-- Reading in between is not seen by a later reading. -/
theorem State.readAfter_readAfter (pre post : Bytes) (s : State) : (s.readAfter pre).readAfter post = s.readAfter (pre ++ post) := by
  simp only [State.readAfter, crcFold_append]
  rfl

/-- Updates, a CRC.RD, and whatever operations follow. -/
theorem execAll_crcUpd_crcRd_append (data : Bytes) (rest : List Instr) (s : State) :
    execAll (data.map .crcUpd ++ .crcRd :: rest) s = execAll rest (s.readAfter data) := by
  induction data generalizing s with
  | nil => exact execAll_cons_of_next rest (exec_crcRd s)
  | cons b data ih =>
    calc execAll (.crcUpd b :: (data.map .crcUpd ++ .crcRd :: rest)) s
      _ = execAll (data.map .crcUpd ++ .crcRd :: rest) ((s.setCrc (crcStep s.crc b)).respond .ok) :=
        execAll_cons_of_next _ (exec_crcUpd b s)
      _ = execAll rest (((s.setCrc (crcStep s.crc b)).respond .ok).readAfter data) := ih _
      _ = execAll rest (s.readAfter (b :: data)) := by rw [State.readAfter_updated]

/-- Updates and a CRC.RD. -/
theorem execAll_crcUpd_crcRd (data : Bytes) (s : State) :
    execAll (data.map .crcUpd ++ [.crcRd]) s = .next (s.readAfter data) :=
  execAll_crcUpd_crcRd_append data [] s

/-- CRC.CLR, updates and a CRC.RD answer the check of the bytes, whatever the accumulator held before (R90, R91). -/
theorem execAll_crcClr_crcUpd_crcRd (data : Bytes) (s : State) :
    execAll (.crcClr :: data.map .crcUpd ++ [.crcRd]) s = .next { s with crc := crc16 data, reply := some (.value (crc16 data)) } := by
  rw [List.cons_append, execAll_cons_of_next _ (exec_crcClr s), execAll_crcUpd_crcRd]
  rfl

/-- A CRC.RD amid the updates does not disturb the computation (R93). -/
theorem execAll_crcRd_between (pre post : Bytes) (s : State) :
    execAll (pre.map .crcUpd ++ [.crcRd] ++ post.map .crcUpd ++ [.crcRd]) s =
      execAll ((pre ++ post).map .crcUpd ++ [.crcRd]) s := by
  calc execAll (pre.map .crcUpd ++ [.crcRd] ++ post.map .crcUpd ++ [.crcRd]) s
    _ = execAll (pre.map .crcUpd ++ .crcRd :: (post.map .crcUpd ++ [.crcRd])) s := by
      simp only [List.append_assoc, List.cons_append, List.nil_append]
    _ = execAll (post.map .crcUpd ++ [.crcRd]) (s.readAfter pre) := execAll_crcUpd_crcRd_append ..
    _ = .next ((s.readAfter pre).readAfter post) := execAll_crcUpd_crcRd ..
    _ = .next (s.readAfter (pre ++ post)) := by rw [State.readAfter_readAfter]
    _ = execAll ((pre ++ post).map .crcUpd ++ [.crcRd]) s := (execAll_crcUpd_crcRd ..).symm

/-! ## Values -/

/-- The two bytes of a 16-bit value as numbers, the high one first (R14). -/
theorem map_toNat_be16 (v : BitVec 16) : (be16 v).map BitVec.toNat = [v.toNat / 256, v.toNat % 256] := by
  have hv : v.toNat / 256 < 256 := by omega
  simp [be16, BitVec.extractLsb'_toNat, Nat.shiftRight_eq_div_pow, Nat.mod_eq_of_lt hv]

/-- The check of "123456789", as R93 gives it. -/
theorem crc16_digits : crc16 [0x31, 0x32, 0x33, 0x34, 0x35, 0x36, 0x37, 0x38, 0x39] = 0xFEE8 := by decide +kernel

/-! ## The obligations -/

/-- Settles O13: CRC.CLR is one write of the accumulator, and CRC.RD after it is the run with no updates in between. -/
theorem crcClearSetsInit : Obligations.CrcClearSetsInit :=
  ⟨rfl, fun s => ⟨exec_crcClr s, execAll_crcClr_crcUpd_crcRd [] s⟩⟩

/-- Settles O15, from the rules for runs of CRC.UPD that end in a CRC.RD, and R93's own example. -/
theorem crcReadReturnsAccumulator : Obligations.CrcReadReturnsAccumulator := by
  refine ⟨rfl, exec_crcRd, execAll_crcRd_between, map_toNat_be16, fun s => ?_⟩
  rw [execAll_crcClr_crcUpd_crcRd, crc16_digits]

end Sys2Proof.Machine
end

section
/-! PARSE (spec/42_frame_parse.md R110 to R112): what it answers on each outcome of `parseFrame`, which error each failed test gives, and
the obligation about its tests and its record. -/

namespace Sys2Proof.Machine

variable {raw : Bytes}

/-! ## The four tests, each reached when the ones before it pass (R112) -/

theorem parseFrame_of_length_lt (hlen : raw.length < 9) : parseFrame raw = .error (.tooShort raw.length) := if_pos hlen

theorem parseFrame_of_ne_header (hlen : ¬raw.length < 9) (hhead : byteAt raw 0 ≠ HEADER) :
    parseFrame raw = .error (.badHeader (byteAt raw 0)) := by
  simp only [parseFrame, MIN_FRAME, if_neg hlen, if_pos hhead]

theorem parseFrame_of_lt_declaredLen (hlen : ¬raw.length < 9) (hhead : byteAt raw 0 = HEADER) (hdecl : raw.length < declaredLen raw) :
    parseFrame raw = .error (.truncated (declaredLen raw) raw.length) := by
  simp only [parseFrame, MIN_FRAME, if_neg hlen, if_neg (not_not.2 hhead), if_pos hdecl]

theorem parseFrame_of_crc_ne (hhead : byteAt raw 0 = HEADER) (hdecl : declaredLen raw ≤ raw.length)
    (hcrc : receivedCrc raw ≠ computedCrc raw) : parseFrame raw = .error (.crcMismatch (receivedCrc raw) (computedCrc raw)) := by
  have hlen : ¬raw.length < 9 := by have := declaredLen_ge raw; omega
  simp only [parseFrame, MIN_FRAME, if_neg hlen, if_neg (not_not.2 hhead), if_neg hdecl.not_gt, if_pos hcrc]

theorem parseFrame_of_valid (hhead : byteAt raw 0 = HEADER) (hdecl : declaredLen raw ≤ raw.length)
    (hcrc : receivedCrc raw = computedCrc raw) : parseFrame raw = .ok (frameRecord raw) :=
  have hlen : 9 ≤ raw.length := by have := declaredLen_ge raw; omega
  (parseFrame_ok_iff raw _).2 ⟨⟨hlen, hhead, hdecl, hcrc⟩, rfl⟩

/-! ## The operation -/

theorem exec_parse_of_ok {r : Frame} (h : parseFrame raw = .ok r) (s : State) :
    exec (.parse raw) s = .next (s.respond (.frame r)) := by
  simp only [exec, execParse, h]

theorem exec_parse_of_error {e : BlockError} (h : parseFrame raw = .error e) (s : State) :
    exec (.parse raw) s = .next (s.raise e) := by
  simp only [exec, execParse, h]

/-- R111's pseudocode, in terms of the parts that a receiver reads of a frame. -/
theorem exec_parse (raw : Bytes) (s : State) :
    exec (.parse raw) s = .next (s.respond (
      if raw.length < 9 then .error (.tooShort raw.length)
      else if byteAt raw 0 ≠ HEADER then .error (.badHeader (byteAt raw 0))
      else if raw.length < declaredLen raw then .error (.truncated (declaredLen raw) raw.length)
      else if receivedCrc raw ≠ computedCrc raw then .error (.crcMismatch (receivedCrc raw) (computedCrc raw))
      else .frame (frameRecord raw))) := by
  split_ifs with hlen hhead hdecl hcrc
  · exact exec_parse_of_error (parseFrame_of_length_lt hlen) s
  · exact exec_parse_of_error (parseFrame_of_ne_header hlen hhead) s
  · exact exec_parse_of_error (parseFrame_of_lt_declaredLen hlen (not_not.1 hhead) hdecl) s
  · exact exec_parse_of_error (parseFrame_of_crc_ne (not_not.1 hhead) (not_lt.1 hdecl) hcrc) s
  · exact exec_parse_of_ok (parseFrame_of_valid (not_not.1 hhead) (not_lt.1 hdecl) (not_not.1 hcrc)) s

/-! ## The obligation -/

/-- Settles O27: `exec_parse`, whose receiver-side parts (`declaredLen`, `receivedCrc`, `computedCrc`, the fields of `frameRecord`) are by
definition the byte positions that the statement writes out. -/
theorem parseTestsThenRecord : Obligations.ParseTestsThenRecord :=
  fun raw s => ⟨rfl, exec_parse raw s⟩

end Sys2Proof.Machine
end

section
/-! EXTRACT (spec/43_frame_extract.md R120 to R124): the scan of a buffer that holds nothing or begins with a header, and the obligations
about EXTRACT's answer and about a candidate whose CRC does not match. -/

namespace Sys2Proof.Machine

variable {t : Bytes}

/-! ## A turn at the head of the buffer -/

/-- A header at the head is not skipped (step 1 of R121). -/
theorem skipToHeader_of_header (hhead : byteAt t 0 = HEADER) : skipToHeader t 0 = 0 := by
  cases t with
  | nil => exact skipToHeader_nil 0
  | cons b t =>
    rw [byteAt_cons_zero] at hhead
    rw [skipToHeader_cons_zero, if_pos hhead]

/-- A complete candidate at the head whose CRC does not match costs the header byte and one discard (step 7 of R121). -/
theorem Scan.turn_of_crc_ne (hhead : byteAt t 0 = HEADER) (hcomplete : frameComplete t = true)
    (hcrc : receivedCrc t ≠ computedCrc t) : Scan.start.turn t = ({ i := 1, frames := [], discards := 1 }, true) := by
  have hi : skipToHeader t Scan.start.i = 0 := skipToHeader_of_header hhead
  rcases Scan.start.turn_cases t with ⟨hstop, -⟩ | ⟨-, haccept, -⟩ | ⟨-, -, hdiscard⟩
  · rw [hi, List.drop_zero, hcomplete] at hstop
    cases hstop
  · rw [hi, List.drop_zero] at haccept
    exact absurd haccept hcrc
  · rw [hdiscard, hi]
    rfl

/-- A buffer with nothing in it ends the scan where it starts. -/
@[simp] theorem extractFrames_nil : extractFrames [] = Scan.start := rfl

/-! ## The operation -/

@[simp] theorem exec_extract (s : State) :
    exec .extract s =
      .next (s.respond (.extracted (extractFrames s.buf).frames (extractFrames s.buf).i (extractFrames s.buf).discards)) := rfl

/-! ## The obligations -/

/-- Settles O32: the scan is its first turn, which moves the cursor to index 1, and then the scan of what is left from there. -/
theorem scanDiscardResumesAfterHeader : Obligations.ScanDiscardResumesAfterHeader := by
  intro t hhead hcomplete hcrc
  rw [extractFrames_turn, Scan.turn_of_crc_ne hhead hcomplete hcrc]
  rfl

/-- Settles O30: EXTRACT is one write of the reply, and the scan of an empty buffer ends where it starts. -/
theorem extractAnswersScan : Obligations.ExtractAnswersScan := by
  refine ⟨exec_extract, fun s hempty => ?_⟩
  have hscan : extractFrames s.buf = Scan.start := by rw [hempty, extractFrames_nil]
  rw [exec_extract, hscan]
  rfl

end Sys2Proof.Machine
end

section
/-! The wire frame read and written (spec/30_encoding.md R60 to R68): slices put together again, a frame rebuilt from its parts, what
the first bytes of a frame decide, and the obligations about encodings. -/

namespace Sys2Proof.Machine

/-! ## Slices -/

/-- Neighbouring slices are one slice. -/
theorem slice_append_slice (s : Bytes) {i j k : Nat} (hij : i ≤ j) (hjk : j ≤ k) : slice s i j ++ slice s j k = slice s i k := by
  have hj : s.drop j = (s.drop i).drop (j - i) := by rw [List.drop_drop, Nat.add_sub_cancel' hij]
  rw [slice, slice, slice, hj, show k - i = (j - i) + (k - j) by omega, List.take_add]

theorem slice_succ {s : Bytes} {i : Nat} (h : i < s.length) : slice s i (i + 1) = [byteAt s i] := by
  rw [slice, Nat.add_sub_cancel_left, List.drop_eq_getElem_cons h, List.take_succ_cons, List.take_zero, byteAt,
    List.getD_eq_getElem _ _ h]

theorem slice_eq_be16 {s : Bytes} {i : Nat} (h : i + 1 < s.length) : slice s i (i + 2) = be16 (be16At s i) := by
  rw [← slice_append_slice s (Nat.le_add_right i 1) (Nat.le_succ _), slice_succ (Nat.lt_of_succ_lt h), slice_succ h, be16_be16At]
  rfl

theorem slice_eq_be32 {s : Bytes} {i : Nat} (h : i + 3 < s.length) : slice s i (i + 4) = be32 (be32At s i) := by
  rw [← slice_append_slice s (Nat.le_add_right i 2) (Nat.le_add_right _ 2), slice_eq_be16 (by omega), slice_eq_be16 h, be16_be16At,
    be16_be16At, be32At_eq_cwOfBytes, be32_cwOfBytes]
  rfl

theorem slice_zero_length (s : Bytes) : slice s 0 s.length = s := by simp [slice]

/-! ## A wire frame whose control word is given byte by byte -/

section Formats

variable {protoType protoVer category code addr : Byte} {payload : Bytes} {crc : CrcWord}

/-- A FRAME.PLAIN has an encoding when its payload's length can be written and bit 13 is 0 (R61, R66). -/
theorem wellFormed_framePlain_iff :
    WellFormed (.framePlain protoType protoVer category code payload crc) = true ↔
      payload.length ≤ 65535 ∧ cwRs485 (cwOfBytes protoType protoVer category code) = false := by
  simp only [WellFormed, payloadFits, categoryAddrBit, cwRs485_cwOfBytes, Bool.and_eq_true, decide_eq_true_eq, Bool.not_eq_true']

/-- A FRAME.ADDR has an encoding when its payload's length can be written and bit 13 is 1 (R62, R66). -/
theorem wellFormed_frameAddr_iff :
    WellFormed (.frameAddr protoType protoVer category code addr payload crc) = true ↔
      payload.length ≤ 65535 ∧ cwRs485 (cwOfBytes protoType protoVer category code) = true := by
  simp only [WellFormed, payloadFits, categoryAddrBit, cwRs485_cwOfBytes, Bool.and_eq_true, decide_eq_true_eq]

/-- The first five bytes of a wire frame (R60). -/
theorem wireFrame_cwOfBytes :
    wireFrame (cwOfBytes protoType protoVer category code) addr payload crc =
      [HEADER, protoType, protoVer, category, code] ++
        ((if cwRs485 (cwOfBytes protoType protoVer category code) then [addr] else []) ++
          be16 (BitVec.ofNat 16 payload.length) ++ payload ++ be16 crc) := by
  simp only [wireFrame, frameBody, be32_cwOfBytes, List.append_assoc, List.cons_append, List.nil_append]

end Formats

/-- A wire frame whose CRC field is the check of the bytes it covers (R67). -/
def checkedFrame (cw : CtlWord) (addr : Byte) (payload : Bytes) : Bytes :=
  wireFrame cw addr payload (crc16 (frameBody cw addr payload))

/-- The address byte of a frame that has one (R62). -/
theorem byteAt_wireFrame_addr {cw : CtlWord} (h : cwRs485 cw = true) (addr : Byte) (payload : Bytes) (crc : CrcWord) :
    byteAt (wireFrame cw addr payload crc) 5 = addr := by
  simp [wireFrame, frameBody, be32, h]

/-- Without the address bit the address is not on the wire (R61). -/
theorem wireFrame_of_not_rs485 {cw : CtlWord} (h : cwRs485 cw = false) (addr addr' : Byte) (payload : Bytes) (crc : CrcWord) :
    wireFrame cw addr payload crc = wireFrame cw addr' payload crc := by
  simp [wireFrame, frameBody, h]

/-! ## A frame is its parts -/

/-- The body of a frame, read and written again. -/
theorem frameBody_of_parts {f : Bytes} (hlen : declaredLen f = f.length) :
    frameBody (frameCw f) (byteAt f 5) (framePayload f) = slice f 1 (declaredLen f - 2) := by
  have hL := declaredLen_eq f
  have haddr : (if cwRs485 (frameCw f) then [byteAt f 5] else []) = slice f 5 (5 + frameAddrSize f) := by
    unfold frameAddrSize addrSize
    split
    · rw [slice_succ (by omega)]
    · simp [slice]
  have hN : be16 (BitVec.ofNat 16 (framePayload f).length) = slice f (5 + frameAddrSize f) (7 + frameAddrSize f) := by
    have hp : (framePayload f).length = (frameLenField f).toNat := by
      rw [framePayload, slice_length]
      omega
    rw [hp, BitVec.ofNat_toNat, BitVec.setWidth_eq, frameLenField, show 7 + frameAddrSize f = 5 + frameAddrSize f + 2 by omega,
      slice_eq_be16 (by omega)]
  rw [frameBody, haddr, hN, frameCw, ← slice_eq_be32 (by omega), framePayload,
    slice_append_slice f (by omega) (by omega), slice_append_slice f (by omega) (by omega), slice_append_slice f (by omega) (by omega),
    show declaredLen f - 2 = 7 + frameAddrSize f + (frameLenField f).toNat by omega]

/-- A string that begins with the header and declares its own length is the wire frame of its parts (R60 to R62). -/
theorem wireFrame_of_parts {f : Bytes} (hhead : byteAt f 0 = HEADER) (hlen : declaredLen f = f.length) :
    wireFrame (frameCw f) (byteAt f 5) (framePayload f) (receivedCrc f) = f := by
  have hge := declaredLen_ge f
  calc wireFrame (frameCw f) (byteAt f 5) (framePayload f) (receivedCrc f)
    _ = slice f 0 1 ++ slice f 1 (declaredLen f - 2) ++ slice f (declaredLen f - 2) (declaredLen f) := by
      have hcrc : be16 (receivedCrc f) = slice f (declaredLen f - 2) (declaredLen f) := by
        rw [receivedCrc, ← slice_eq_be16 (by omega), Nat.sub_add_cancel (by omega)]
      rw [wireFrame, frameBody_of_parts hlen, hcrc, ← hhead, slice_succ (by omega)]
    _ = f := by
      rw [slice_append_slice f (by omega) (by omega), slice_append_slice f (by omega) (by omega), hlen, slice_zero_length]

/-! ## Decoding a chunk -/

/-- What the decoder reads from a frame that fills its chunk. -/
theorem decodeFrame_of_exact {f : Bytes} (hhead : byteAt f 0 = HEADER) (hlen : declaredLen f = f.length) :
    decodeFrame f = .ok (
      if cwRs485 (frameCw f) then
        .frameAddr (byteAt f 1) (byteAt f 2) (byteAt f 3) (byteAt f 4) (byteAt f 5) (framePayload f) (receivedCrc f)
      else .framePlain (byteAt f 1) (byteAt f 2) (byteAt f 3) (byteAt f 4) (framePayload f) (receivedCrc f)) := by
  have hne : f ≠ [] := by
    rintro rfl
    cases hhead
  have hcomplete := frameComplete_of_length hlen.le
  rw [decodeFrame, if_neg (by simp [hne, hhead]), if_neg (by simp [hcomplete]), if_neg (by omega)]
  split <;> rfl

/-- A chunk that decodes is one frame that fills it. -/
theorem exact_of_decodeFrame {f : Bytes} {i : Instr} (h : decodeFrame f = .ok i) : byteAt f 0 = HEADER ∧ declaredLen f = f.length := by
  unfold decodeFrame at h
  split_ifs at h with hhead hcomplete hlonger <;>
    (rw [Bool.not_eq_true', Bool.not_eq_false, frameComplete_iff] at hcomplete; exact ⟨by tauto, by omega⟩)

/-- The decoder reads a wire frame back, with the address exactly when bit 13 is set. -/
theorem decodeFrame_wireFrame (protoType protoVer category code addr : Byte) {payload : Bytes} (crc : CrcWord)
    (hp : payload.length ≤ 65535) :
    decodeFrame (wireFrame (cwOfBytes protoType protoVer category code) addr payload crc) = .ok (
      if cwRs485 (cwOfBytes protoType protoVer category code) then .frameAddr protoType protoVer category code addr payload crc
      else .framePlain protoType protoVer category code payload crc) := by
  rw [decodeFrame_of_exact rfl (declaredLen_wireFrame _ _ _ _ hp), frameCw_wireFrame, framePayload_wireFrame _ _ _ _ hp,
    receivedCrc_wireFrame _ _ _ _ hp]
  split
  next hset => rw [byteAt_wireFrame_addr hset, wireFrame_cwOfBytes]; rfl
  next => rw [wireFrame_cwOfBytes]; rfl

/-! ## Big-endian values as numbers (R14, R42) -/

/-- A byte behind a word is the low byte of the longer word. -/
theorem toNat_append_byte {w : Nat} (v : BitVec w) (b : Byte) : (v ++ b).toNat = v.toNat * 256 + b.toNat := by
  rw [BitVec.toNat_append, ← Nat.shiftLeft_add_eq_or_of_lt b.isLt, Nat.shiftLeft_eq]

theorem be16At_toNat (s : Bytes) (i : Nat) : (be16At s i).toNat = (byteAt s i).toNat * 256 + (byteAt s (i + 1)).toNat :=
  toNat_append_byte _ _

theorem be32At_toNat (s : Bytes) (i : Nat) :
    (be32At s i).toNat = (byteAt s i).toNat * 2 ^ 24 + (byteAt s (i + 1)).toNat * 2 ^ 16 + (byteAt s (i + 2)).toNat * 2 ^ 8 +
      (byteAt s (i + 3)).toNat := by
  simp only [be32At, toNat_append_byte]
  omega

/-! ## What the first bytes of a frame decide (R68) -/

theorem frameCw_take (f : Bytes) {n : Nat} (h : 5 ≤ n) : frameCw (f.take n) = frameCw f := by
  simp only [frameCw, be32At, byteAt_take (show 1 < n by omega), byteAt_take (show 1 + 1 < n by omega),
    byteAt_take (show 1 + 2 < n by omega), byteAt_take (show 1 + 3 < n by omega)]

theorem frameAddrSize_take (f : Bytes) {n : Nat} (h : 5 ≤ n) : frameAddrSize (f.take n) = frameAddrSize f := by
  rw [frameAddrSize, frameCw_take f h, frameAddrSize]

theorem declaredLen_take (f : Bytes) {n : Nat} (h : 7 + frameAddrSize f ≤ n) : declaredLen (f.take n) = declaredLen f := by
  have ha := frameAddrSize_take f (show 5 ≤ n by omega)
  simp only [declaredLen_eq, frameLenField, ha, be16At, byteAt_take (show 5 + frameAddrSize f < n by omega),
    byteAt_take (show 5 + frameAddrSize f + 1 < n by omega)]

/-! ## The obligations -/

/-- Settles O8: an operation's code and operands are read back as they stand, and a frame by `decodeFrame_wireFrame`, its format being
what bit 13 says. -/
theorem decodeEncodeRoundTrip : Obligations.DecodeEncodeRoundTrip := by
  intro i hwf
  cases i
  case framePlain protoType protoVer category code payload crc =>
    obtain ⟨hp, hbit⟩ := wellFormed_framePlain_iff.1 hwf
    rw [encode, decode, decodeFrame_wireFrame _ _ _ _ _ _ hp, hbit]
    rfl
  case frameAddr protoType protoVer category code addr payload crc =>
    obtain ⟨hp, hbit⟩ := wellFormed_frameAddr_iff.1 hwf
    rw [encode, decode, decodeFrame_wireFrame _ _ _ _ _ _ hp, hbit]
    rfl
  all_goals rfl

/-- Settles O9: a chunk that decodes is one frame, which `wireFrame_of_parts` puts together again. -/
theorem decodedChunkIsItsEncoding : Obligations.DecodedChunkIsItsEncoding := by
  intro f i h
  obtain ⟨hhead, hlen⟩ := exact_of_decodeFrame h
  have hparts := wireFrame_of_parts hhead hlen
  have hcw : frameCw f = cwOfBytes (byteAt f 1) (byteAt f 2) (byteAt f 3) (byteAt f 4) := be32At_eq_cwOfBytes f 1
  have hp : (framePayload f).length ≤ 65535 := by
    have := (frameLenField f).isLt
    rw [framePayload, slice_length]
    omega
  rw [decode, decodeFrame_of_exact hhead hlen, Except.ok.injEq] at h
  rw [hcw] at h hparts
  subst h
  split
  next hset => exact ⟨wellFormed_frameAddr_iff.2 ⟨hp, hset⟩, by rw [encode, hparts]⟩
  next hclear =>
    rw [Bool.not_eq_true] at hclear
    exact ⟨wellFormed_framePlain_iff.2 ⟨hp, hclear⟩, by rw [encode, wireFrame_of_not_rs485 hclear 0 (byteAt f 5), hparts]⟩

/-- Settles O12: cutting a string behind its first 5 or 7 + a bytes leaves what these decide. -/
theorem frameLengthFromFirstBytes : Obligations.FrameLengthFromFirstBytes := by
  refine ⟨fun f g _ h => ?_, fun f g _ h => ?_, fun f => ⟨rfl, rfl⟩⟩
  · rw [← frameCw_take f le_rfl, ← frameAddrSize_take f le_rfl, h, frameCw_take g le_rfl, frameAddrSize_take g le_rfl]
    exact ⟨rfl, rfl⟩
  · have ha : frameAddrSize g = frameAddrSize f := by
      rw [← frameAddrSize_take g (show 5 ≤ 7 + frameAddrSize f by omega), ← h, frameAddrSize_take f (by omega)]
    rw [← declaredLen_take f le_rfl, h, declaredLen_take g (by omega)]

/-- Settles O6: each code and the frame, evaluated. -/
theorem tableWordsDecode : Obligations.TableWordsDecode :=
  ⟨rfl, rfl, rfl, rfl, rfl, rfl, rfl, rfl, rfl, rfl⟩

/-- Settles O7: a default is taken exactly for an operand left out. -/
theorem buildOperandDefaults : Obligations.BuildOperandDefaults := by
  intro category code payload rs485 notify addr
  cases payload <;> cases rs485 <;> cases notify <;> cases addr <;> rfl

/-- Settles O11: what two and four bytes in a row are as numbers, and that the writers are read back. -/
theorem fieldsAreBigEndian : Obligations.FieldsAreBigEndian :=
  ⟨be16At_toNat, be32At_toNat, fun v => ⟨be16_length v, be16At_be16 v⟩, fun v => ⟨be32_length v, be32At_be32 v⟩⟩

end Sys2Proof.Machine
end

section
/-! Every instruction and every step (spec/10_state.md R20 to R27, spec/60_exceptions.md R150, R151): what each leaves of each piece of
state, where errors come from, and the obligations about the whole machine. -/

namespace Sys2Proof.Machine

/-! ## One equation per instruction -/

@[simp] theorem exec_crcBlk (data : Bytes) (s : State) :
    exec (.crcBlk data) s = .next ((s.setCrc (crc16 data)).respond (.value (crc16 data))) := rfl

@[simp] theorem exec_bufPushb (b : Byte) (s : State) :
    exec (.bufPushb b) s = .next ((s.push [b]).respond (.accepted (acceptedCount s.cfg.cap s.buf.length 1))) := rfl

@[simp] theorem exec_bufPush (chunk : Bytes) (s : State) :
    exec (.bufPush chunk) s = .next ((s.push chunk).respond (.accepted (acceptedCount s.cfg.cap s.buf.length chunk.length))) := rfl

theorem exec_bufTrim_of_le {n : Nat} {s : State} (h : n ≤ s.buf.length) :
    exec (.bufTrim n) s = .next ((s.dropOldest n).respond .ok) := by
  rw [exec, execBufTrim, if_neg h.not_gt]

theorem exec_bufTrim_of_lt {n : Nat} {s : State} (h : s.buf.length < n) :
    exec (.bufTrim n) s = .next (s.raise (.trimRange n s.buf.length)) := by
  rw [exec, execBufTrim, if_pos h]

@[simp] theorem exec_bufClear (s : State) : exec .bufClear s = .next (s.clearBuf.respond .ok) := rfl

@[simp] theorem exec_bufLen (s : State) : exec .bufLen s = .next (s.respond (.level s.buf.length s.ovf)) := rfl

@[simp] theorem exec_feed (chunk : Bytes) (s : State) : exec (.feed chunk) s = .next (s.feedChunk chunk) := rfl

@[simp] theorem exec_framePlain (protoType protoVer category code : Byte) (payload : Bytes) (crc : CrcWord) (s : State) :
    exec (.framePlain protoType protoVer category code payload crc) s =
      .next (s.feedChunk (wireFrame (cwOfBytes protoType protoVer category code) 0 payload crc)) := rfl

@[simp] theorem exec_frameAddr (protoType protoVer category code addr : Byte) (payload : Bytes) (crc : CrcWord) (s : State) :
    exec (.frameAddr protoType protoVer category code addr payload crc) s =
      .next (s.feedChunk (wireFrame (cwOfBytes protoType protoVer category code) addr payload crc)) := rfl

@[simp] theorem exec_reserved0 (s : State) : exec .reserved0 s = .next (s.raise (.illegalOp 0x0)) := rfl

@[simp] theorem exec_reservedE (s : State) : exec .reservedE s = .next (s.raise (.illegalOp 0xE)) := rfl

@[simp] theorem exec_reservedF (s : State) : exec .reservedF s = .next (s.raise (.illegalOp 0xF)) := rfl

theorem exec_build (category code : Byte) (payload : Bytes) (rs485 notify : Bool) (addr : Byte) (s : State) :
    exec (.build category code payload rs485 notify addr) s = .next (s.respond (
      if 65535 < payload.length then .error (.payloadTooLong payload.length)
      else .bytes (checkedFrame (assembleCw s.cfg category code rs485 notify) addr payload))) := by
  simp only [exec, execBuild, buildFrame, MAX_PAYLOAD, gt_iff_lt]
  split_ifs <;> rfl

/-! ## What an instruction leaves -/

section Exec

variable {i : Instr} {s t : State} (h : exec i s = .next t)
include h

theorem exec_cfg : t.cfg = s.cfg := by
  rcases exec_cases h with ⟨_, rfl⟩ | ⟨_, _, -, rfl⟩ | ⟨_, _, -, rfl⟩ | ⟨_, -, -, rfl⟩ | ⟨-, rfl⟩ | ⟨_, -, -, -, -, rfl⟩ <;> rfl

theorem exec_inputs : t.inputs = s.inputs := by
  rcases exec_cases h with ⟨_, rfl⟩ | ⟨_, _, -, rfl⟩ | ⟨_, _, -, rfl⟩ | ⟨_, -, -, rfl⟩ | ⟨-, rfl⟩ | ⟨_, -, -, -, -, rfl⟩ <;> rfl

theorem exec_crc (hw : writesCrc i = false) : t.crc = s.crc := by
  rcases exec_cases h with ⟨_, rfl⟩ | ⟨_, _, hi, rfl⟩ | ⟨_, _, -, rfl⟩ | ⟨_, -, -, rfl⟩ | ⟨-, rfl⟩ | ⟨_, -, -, -, -, rfl⟩
  case inr.inl => exact absurd hi (by simp [hw])
  all_goals rfl

theorem exec_buf_of_not_writes (hw : writesBuf i = false) : t.buf = s.buf := by
  rcases exec_cases h with ⟨_, rfl⟩ | ⟨_, _, -, rfl⟩ | ⟨_, _, rfl | ⟨_, rfl, -⟩, -⟩ | ⟨_, rfl, -⟩ | ⟨rfl, -⟩ | ⟨_, hi, -⟩
  · rfl
  · rfl
  · cases hw
  · cases hw
  · cases hw
  · cases hw
  · exact absurd hi (by simp [hw])

theorem exec_ovf_of_not_writes (hw : writesOvf i = false) : t.ovf = s.ovf := by
  rcases exec_cases h with ⟨_, rfl⟩ | ⟨_, _, -, rfl⟩ | ⟨_, _, rfl | ⟨_, rfl, -⟩, -⟩ | ⟨_, -, -, rfl⟩ | ⟨rfl, -⟩ | ⟨_, -, -, hi, -⟩
  · rfl
  · rfl
  · cases hw
  · cases hw
  · rfl
  · cases hw
  · exact absurd hi (by simp [hw])

/-- Every instruction keeps the buffer within the capacity (R20, R22). -/
theorem exec_wf (hs : s.wf = true) : t.wf = true := by
  rcases exec_cases h with ⟨_, rfl⟩ | ⟨_, _, -, rfl⟩ | ⟨_, _, -, rfl⟩ | ⟨_, -, -, rfl⟩ | ⟨-, rfl⟩ | ⟨_, -, -, -, -, rfl⟩
  · exact hs
  · exact hs
  · exact s.wf_push _ hs
  · exact s.wf_dropOldest _ hs
  · exact s.wf_clearBuf
  · exact s.wf_feedChunk _ hs

/-- A set `OVF` survives every instruction but BUF.CLEAR (R23). -/
theorem exec_keeps_ovf (hi : i ≠ .bufClear) (hs : s.ovf = true) : t.ovf = true := by
  have hpush : ∀ c, (s.push c).ovf = true := fun c => by simp [ovfAfterPush, hs]
  rcases exec_cases h with ⟨_, rfl⟩ | ⟨_, _, -, rfl⟩ | ⟨_, _, -, rfl⟩ | ⟨_, -, -, rfl⟩ | ⟨hclear, -⟩ | ⟨_, -, -, -, -, rfl⟩
  · exact hs
  · exact hs
  · exact hpush _
  · exact hs
  · exact absurd hclear hi
  · exact hpush _

/-- With an unbounded capacity nothing is dropped, so that nothing sets `OVF` (R11, R23). -/
theorem exec_ovf_of_unbounded (hcap : s.cfg.cap = none) (hs : s.ovf = false) : t.ovf = false := by
  have hpush : ∀ c, (s.push c).ovf = false := fun c => by simp [ovfAfterPush, acceptedCount, hcap, hs]
  rcases exec_cases h with ⟨_, rfl⟩ | ⟨_, _, -, rfl⟩ | ⟨_, _, -, rfl⟩ | ⟨_, -, -, rfl⟩ | ⟨-, rfl⟩ | ⟨_, -, -, -, -, rfl⟩
  · exact hs
  · exact hs
  · exact hpush _
  · exact hs
  · rfl
  · exact hpush _

end Exec

/-! ## One step, by what waits -/

section Step

variable {s : State} {rest : List Input}

theorem step_of_idle (h : s.inputs = []) : step s = .next s := by simp only [step, State.takeInput, h]

theorem step_of_reset (h : s.inputs = .resetEvent :: rest) : step s = .next ({ s with inputs := rest } : State).takeReset := by
  simp only [step, State.takeInput, h]

theorem step_of_decoded {r : Request} {i : Instr} (h : s.inputs = .request r :: rest) (hd : decode r = .ok i) :
    step s = exec i { s with inputs := rest } := by
  simp only [step, State.takeInput, h, hd]

theorem step_of_rejected {r : Request} {why : Reject} (h : s.inputs = .request r :: rest) (hd : decode r = .error why) :
    step s = takeRejected why r { s with inputs := rest } := by
  simp only [step, State.takeInput, h, hd]

end Step

/-! ## Errors -/

/-- Every error of `parseFrame` is one of PARSE's four. -/
theorem raisedBy_parse {raw : Bytes} {e : BlockError} (h : parseFrame raw = .error e) : raisedBy e (.parse raw) = true := by
  unfold parseFrame at h
  split_ifs at h <;> cases h <;> rfl

/-- An instruction that ends in an error raises it, and is the one that the error comes from (R150, R151). -/
theorem exec_error {i : Instr} {s t : State} {e : BlockError} (h : exec i s = .next t) (he : t.reply = some (.error e)) :
    t = s.raise e ∧ raisedBy e i = true := by
  cases i
  case build category code payload rs485 notify addr =>
    rw [exec_build] at h
    split_ifs at h <;> cases h <;> cases he
    exact ⟨rfl, rfl⟩
  case parse raw =>
    cases hp : parseFrame raw with
    | ok r =>
      rw [exec_parse_of_ok hp] at h
      cases h
      cases he
    | error e' =>
      rw [exec_parse_of_error hp] at h
      cases h
      cases he
      exact ⟨rfl, raisedBy_parse hp⟩
  case bufTrim n =>
    rcases le_or_gt n s.buf.length with hn | hn
    · rw [exec_bufTrim_of_le hn] at h
      cases h
      cases he
    · rw [exec_bufTrim_of_lt hn] at h
      cases h
      cases he
      exact ⟨rfl, rfl⟩
  case reserved0 => cases h; cases he; exact ⟨rfl, rfl⟩
  case reservedE => cases h; cases he; exact ⟨rfl, rfl⟩
  case reservedF => cases h; cases he; exact ⟨rfl, rfl⟩
  all_goals cases h; cases he

/-! ## The obligations -/

/-- Settles O55: a step is nothing, a reset, an instruction or a FEED, and each keeps the buffer within the capacity. -/
theorem stepKeepsBufferWithinCapacity : Obligations.StepKeepsBufferWithinCapacity := by
  intro s t hs h
  rcases step_cases h with ⟨-, rfl⟩ | ⟨rest, -, rfl⟩ | ⟨r, rest, i, -, -, hexec⟩ | ⟨bytes, rest, why, -, -, rfl⟩
  · exact ⟨hs, rfl⟩
  · exact ⟨State.wf_takeReset _, rfl⟩
  · exact ⟨exec_wf hexec hs, (exec_cfg hexec).trans rfl⟩
  · exact ⟨State.wf_feedChunk _ bytes hs, rfl⟩

/-- Settles O53, one lemma per piece of state. -/
theorem onlyListedInstructionsWrite : Obligations.OnlyListedInstructionsWrite :=
  fun _ _ _ h => ⟨exec_cfg h, exec_inputs h, exec_crc h, fun hw _ => by rw [exec_buf_of_not_writes h hw], exec_ovf_of_not_writes h⟩

/-- Settles O56: the instruction that clears a set flag is BUF.CLEAR, and a FEED of a chunk from the line keeps it too. -/
theorem overflowFlagIsSticky : Obligations.OverflowFlagIsSticky := by
  refine ⟨fun i s t h => exec_keeps_ovf h, fun i s t h => exec_ovf_of_unbounded h, fun s t h hs ht => ?_⟩
  rcases step_cases h with ⟨-, rfl⟩ | ⟨rest, hin, -⟩ | ⟨r, rest, i, hin, hd, hexec⟩ | ⟨bytes, rest, why, -, -, rfl⟩
  · exact absurd (ht.symm.trans hs) Bool.false_ne_true
  · exact .inl ⟨rest, hin⟩
  · by_cases hi : i = .bufClear
    · exact .inr ⟨r, rest, hin, hi ▸ hd⟩
    · exact absurd (ht.symm.trans (exec_keeps_ovf hexec hi hs)) Bool.false_ne_true
  · exact absurd (ht.symm.trans (exec_keeps_ovf (exec_feed bytes _) (by simp) hs)) Bool.false_ne_true

/-- Settles O57: `exec_error`. -/
theorem errorsChangeNoState : Obligations.ErrorsChangeNoState :=
  fun _ _ _ _ h he => (exec_error h he).1

/-- Settles O58: `exec_error`, and the table of numbers. -/
theorem errorsComeFromTheirOperations : Obligations.ErrorsComeFromTheirOperations :=
  ⟨fun _ _ _ _ h he => (exec_error h he).2, fun _ _ _ _ _ _ => ⟨rfl, rfl, rfl, rfl, rfl, rfl, rfl⟩⟩

/-- Settles O1: the fields of `State.reset`; an empty buffer is within any capacity. -/
theorem resetLeavesInitialState : Obligations.ResetLeavesInitialState :=
  ⟨rfl, rfl, rfl, Memory.wf_nil _⟩

/-- Settles O2: the step is `State.takeReset`, field by field. -/
theorem resetEventReinitialises : Obligations.ResetEventReinitialises :=
  fun _ _ h => step_of_reset h

/-- Settles O3: the third case of a step. -/
theorem stepRunsDecodedInstruction : Obligations.StepRunsDecodedInstruction :=
  fun _ _ _ _ h hd => step_of_decoded h hd

/-- Settles O4: what `takeRejected` does with a chunk and with an operation. -/
theorem stepWithoutInstruction : Obligations.StepWithoutInstruction :=
  ⟨fun _ h => step_of_idle h, fun _ _ _ _ h hd => step_of_rejected h hd, fun _ _ _ _ _ h hd => step_of_rejected h hd⟩

/-- Settles O5: every arm answers, BUF.TRIM on each of its two outcomes. -/
theorem everyInstructionCompletes : Obligations.EveryInstructionCompletes := by
  intro i s
  cases i
  case build => exact ⟨_, exec_build .., by simp⟩
  case parse raw => exact ⟨_, exec_parse raw s, by simp⟩
  case bufTrim n =>
    rcases le_or_gt n s.buf.length with hn | hn
    · exact ⟨_, exec_bufTrim_of_le hn, by simp⟩
    · exact ⟨_, exec_bufTrim_of_lt hn, by simp⟩
  all_goals exact ⟨_, rfl, by simp⟩

/-- Settles O10: a reserved code is told before its operands are looked at, and raises. -/
theorem reservedCodesRaiseIllegalOp : Obligations.ReservedCodesRaiseIllegalOp := by
  intro operands s
  refine ⟨⟨?_, ?_, ?_⟩, exec_reserved0 s, exec_reservedE s, exec_reservedF s⟩ <;> cases operands <;> rfl

/-- Settles O40: each read-only operation is one write of the reply, whose value reads no reply. -/
theorem readOnlyOperationsRepeat : Obligations.ReadOnlyOperationsRepeat := by
  intro i s hro
  cases i <;> cases hro
  case crcRd => exact ⟨_, exec_crcRd s, rfl⟩
  case bufLen => exact ⟨_, exec_bufLen s, rfl⟩
  case extract => exact ⟨_, exec_extract s, rfl⟩
  case parse raw => exact ⟨_, exec_parse raw s, exec_parse raw _⟩
  case build => exact ⟨_, exec_build .., exec_build ..⟩

/-- Settles O59: every arm writes the reply without reading it. -/
theorem repliesDoNotInfluenceOperations : Obligations.RepliesDoNotInfluenceOperations := by
  intro i s earlier
  cases i <;> rfl

/-- A step of the system is one write of the list at the place stepped. -/
theorem System.stepAt_of_next {sys : System} {k : Nat} {s t : State} (hk : sys[k]? = some s) (h : step s = .next t) :
    sys.stepAt k = sys.set k t := by
  simp only [System.stepAt, hk, h]

/-- Settles O60: the list is left as it is, or written at place `k` alone. -/
theorem instancesShareNothing : Obligations.InstancesShareNothing := by
  refine fun sys k => ⟨fun j hj => ?_, fun s t hk h => ?_⟩
  · unfold System.stepAt
    split
    · rfl
    · split
      · exact List.getElem?_set_ne hj.symm
      · rfl
      · rfl
  · have hlt : k < sys.length := (List.getElem?_eq_some_iff.1 hk).1
    rw [System.stepAt_of_next hk h, List.getElem?_set_self hlt]

end Sys2Proof.Machine
end

section
/-! The CRC function (spec/40_crc.md R90 to R96): linearity, leading zeros, the residue, single bit flips, the remainder over GF(2), and
the obligations about them. -/

namespace Sys2Proof.Machine

/-! ## One byte -/

/-- A byte into the high half is the byte with zeros behind it. -/
theorem setWidth_shiftLeft_eight (b : Byte) : b.setWidth 16 <<< 8 = b ++ 0x00#8 :=
  BitVec.eq_of_getLsbD_eq fun k hk => by
    rw [BitVec.getLsbD_append, BitVec.getLsbD_shiftLeft, BitVec.getLsbD_setWidth]
    by_cases h : k < 8
    · simp [h]
    · simp [h, hk, show k - 8 < 16 by omega]

/-- One shift-XOR iteration, with the bit shifted out read as the sign bit (R90). -/
theorem crcShift_eq_msb (c : CrcWord) : crcShift c = if c.msb then (c <<< 1) ^^^ 0x8005#16 else c <<< 1 := rfl

/-- One byte is linear over XOR, in the accumulator and in the byte. -/
theorem crcStep_xor (c d : CrcWord) (a b : Byte) : crcStep (c ^^^ d) (a ^^^ b) = crcStep c a ^^^ crcStep d b := by
  rw [crcStep, crcStep, crcStep, ← crcShifts_xor, BitVec.setWidth_xor, BitVec.shiftLeft_xor_distrib]
  congr 1
  ac_rfl

/-! ## Strings -/

/-- The fold is linear over strings of equal length (R96 (a)). -/
theorem crcFold_xorBytes {s t : Bytes} (h : s.length = t.length) (c d : CrcWord) :
    crcFold (c ^^^ d) (xorBytes s t) = crcFold c s ^^^ crcFold d t := by
  induction s generalizing t c d with
  | nil => cases t with
    | nil => rfl
    | cons => cases h
  | cons a s ih => cases t with
    | nil => cases h
    | cons b t =>
      calc crcFold (c ^^^ d) (xorBytes (a :: s) (b :: t))
        _ = crcFold (crcStep c a ^^^ crcStep d b) (xorBytes s t) := by rw [← crcStep_xor]; rfl
        _ = crcFold c (a :: s) ^^^ crcFold d (b :: t) := ih (Nat.succ.inj h) _ _

/-- Zero bytes leave a zero accumulator (R179). -/
theorem crcFold_zeros (n : Nat) : crcFold 0 (List.replicate n 0x00) = 0 := by
  induction n with
  | zero => rfl
  | succ n ih => rw [List.replicate_succ, crcFold_cons, crcStep_zero, ih]

/-! ## The residue -/

/-- Iterations that shift only zeros out are a shift. -/
theorem crcShifts_eq_shiftLeft (k : Nat) {c : CrcWord} (h : c.toNat * 2 ^ k < 2 ^ 16) : crcShifts k c = c <<< k := by
  induction k generalizing c with
  | zero => simp [crcShifts]
  | succ k ih =>
    have hpos : 0 < 2 ^ k := Nat.two_pow_pos k
    have htwo : c.toNat * 2 * 2 ^ k < 2 ^ 16 := by rwa [pow_succ', ← mul_assoc] at h
    have hc : c.toNat * 2 < 2 ^ 16 := lt_of_le_of_lt (Nat.le_mul_of_pos_right _ hpos) htwo
    have hbit : c.getLsbD 15 = false := Nat.testBit_lt_two_pow (by omega)
    have hshift : (c <<< 1).toNat = c.toNat * 2 := by
      rw [BitVec.toNat_shiftLeft, Nat.shiftLeft_eq, pow_one, Nat.mod_eq_of_lt hc]
    have hstep : crcShift c = c <<< 1 := by rw [crcShift, hbit, if_neg Bool.false_ne_true]
    rw [crcShifts, hstep, ih (by rwa [hshift]), ← BitVec.shiftLeft_add, Nat.add_comm]

/-- The high byte of the accumulator, fed in, cancels itself: the low byte moves up. -/
theorem crcStep_high_byte (c : CrcWord) : crcStep c (c.extractLsb' 8 8) = (c.extractLsb' 0 8).setWidth 16 <<< 8 := by
  have hlow : c ^^^ ((c.extractLsb' 8 8).setWidth 16 <<< 8) = (c.extractLsb' 0 8).setWidth 16 :=
    BitVec.eq_of_getLsbD_eq fun k hk => by
      by_cases h : k < 8
      · simp [h, hk]
      · simp [h, hk, show k - 8 < 8 by omega, show 8 + (k - 8) = k by omega]
  have hlt := (c.extractLsb' 0 8).isLt
  rw [crcStep, hlow, crcShifts_eq_shiftLeft 8 (by rw [BitVec.toNat_setWidth_of_le (by omega)]; omega)]

/-- An accumulator fed its own two bytes, high byte first, is zero (R96 (b)). -/
theorem crcFold_be16_self (c : CrcWord) : crcFold c (be16 c) = 0 := by
  rw [be16, crcFold_cons, crcFold_cons, crcFold_nil, crcStep_high_byte, crcStep, BitVec.xor_self]
  exact crcShifts_zero 8

/-! ## No information is lost -/

/-- The generator has the term 1, so an iteration whose result is zero shifted nothing out and had nothing else. -/
theorem crcShift_eq_zero {c : CrcWord} (h : crcShift c = 0#16) : c = 0#16 := by
  unfold crcShift at h
  split_ifs at h with h15
  · have h0 := congrArg (BitVec.getLsbD · 0) h
    simp [POLY] at h0
  · rw [Bool.not_eq_true] at h15
    refine BitVec.eq_of_getLsbD_eq fun k hk => ?_
    rw [BitVec.getLsbD_zero]
    rcases Nat.lt_or_ge k 15 with hlt | hge
    · have hk1 := congrArg (BitVec.getLsbD · (k + 1)) h
      simpa only [BitVec.getLsbD_shiftLeft, show k + 1 < 16 by omega, show ¬k + 1 < 1 by omega, decide_true, decide_false, Bool.not_false,
        Bool.true_and, Nat.add_sub_cancel, BitVec.getLsbD_zero] using hk1
    · rwa [show k = 15 by omega]

theorem crcShift_injective : Function.Injective crcShift := fun a b h => by
  have hzero : crcShift (a ^^^ b) = 0#16 := by rw [crcShift_xor, h, BitVec.xor_self]
  exact BitVec.xor_eq_zero_iff.1 (crcShift_eq_zero hzero)

theorem crcShifts_injective (k : Nat) : Function.Injective (crcShifts k) := by
  induction k with
  | zero => exact Function.injective_id
  | succ k ih => exact ih.comp crcShift_injective

/-- Different accumulators stay different under the same bytes. -/
theorem crcFold_injective (t : Bytes) : Function.Injective (crcFold · t) := by
  induction t with
  | nil => exact Function.injective_id
  | cons b t ih => exact fun c d h => (BitVec.xor_left_inj _).1 (crcShifts_injective 8 (ih h))

/-- Different bytes take one accumulator to different ones. -/
theorem crcStep_byte_injective (c : CrcWord) : Function.Injective (crcStep c) := fun a b h => by
  have hhigh : a.setWidth 16 <<< 8 = b.setWidth 16 <<< 8 := (BitVec.xor_right_inj c).1 (crcShifts_injective 8 h)
  refine BitVec.eq_of_getLsbD_eq fun k hk => ?_
  have hbit := congrArg (BitVec.getLsbD · (k + 8)) hhigh
  simpa [show k + 8 < 16 by omega, show k < 16 by omega] using hbit

/-- Strings that differ in one byte have different checks. -/
theorem crc16_set_ne {s : Bytes} {i : Nat} (hi : i < s.length) {b : Byte} (hb : b ≠ byteAt s i) : crc16 (s.set i b) ≠ crc16 s := by
  have hsplit : s = s.take i ++ byteAt s i :: s.drop (i + 1) := by
    rw [byteAt, List.getD_eq_getElem _ _ hi, List.getElem_cons_drop, List.take_append_drop]
  intro h
  rw [List.set_eq_take_append_cons_drop, if_pos hi] at h
  conv_rhs at h => rw [hsplit]
  rw [crc16, crc16, crcFold_append, crcFold_append] at h
  exact hb (crcStep_byte_injective _ (crcFold_injective _ h))

/-! ## The remainder over GF(2) (R95) -/

open Polynomial

/-- G(x) = x^16 + x^15 + x^2 + 1 (R95). -/
noncomputable def crcGenerator : (ZMod 2)[X] := X ^ 16 + X ^ 15 + X ^ 2 + 1

theorem crcGenerator_degree : crcGenerator.degree = 16 := by
  unfold crcGenerator
  compute_degree!

theorem crcGenerator_monic : crcGenerator.Monic := by
  unfold crcGenerator
  monicity!

theorem bitPoly_xor {w : Nat} (a b : BitVec w) : bitPoly (a ^^^ b) = bitPoly a + bitPoly b := by
  rw [bitPoly, bitPoly, bitPoly, ← Finset.sum_add_distrib]
  refine Finset.sum_congr rfl fun k _ => ?_
  have htwo : (X ^ k + X ^ k : (ZMod 2)[X]) = 0 := CharTwo.add_self_eq_zero _
  rw [BitVec.getLsbD_xor]
  cases a.getLsbD k <;> cases b.getLsbD k <;> simp [htwo]

/-- The high part of a word is its quotient by a power of x, the low part the remainder. -/
theorem bitPoly_append {n m : Nat} (a : BitVec n) (b : BitVec m) : bitPoly (a ++ b) = bitPoly b + bitPoly a * X ^ m := by
  rw [bitPoly, bitPoly, bitPoly, congrArg Finset.range (Nat.add_comm n m), Finset.sum_range_add, Finset.sum_mul]
  refine congrArg₂ (· + ·) (Finset.sum_congr rfl fun k hk => ?_) (Finset.sum_congr rfl fun k hk => ?_) <;> rw [BitVec.getLsbD_append]
  · rw [if_pos (Finset.mem_range.1 hk)]
  · rw [if_neg (Nat.not_lt.2 (Nat.le_add_right m k)), Nat.add_sub_cancel_left, pow_add, mul_comm (X ^ m), ite_mul, zero_mul]

/-- A word has a degree below its width. -/
theorem degree_bitPoly_lt {w : Nat} (v : BitVec w) : (bitPoly v).degree < w := by
  rw [← mem_degreeLT]
  refine Submodule.sum_mem _ fun k hk => ?_
  rw [mem_degreeLT]
  split
  · rw [degree_X_pow]
    exact_mod_cast Finset.mem_range.1 hk
  · rw [degree_zero]
    exact WithBot.bot_lt_coe w

/-- A shift by one multiplies by x, but for the coefficient shifted out. -/
theorem bitPoly_shiftLeft_one (c : CrcWord) : bitPoly (c <<< 1) + (if c.getLsbD 15 then X ^ 16 else 0) = X * bitPoly c := by
  rw [bitPoly, bitPoly, Finset.mul_sum, Finset.sum_range_succ' _ 15, Finset.sum_range_succ _ 15]
  have hbit0 : (c <<< 1).getLsbD 0 = false := by simp
  rw [hbit0, if_neg Bool.false_ne_true, add_zero]
  refine congrArg₂ (· + ·) (Finset.sum_congr rfl fun k hk => ?_) ?_
  · have hk := Finset.mem_range.1 hk
    rw [BitVec.getLsbD_shiftLeft, show decide (k + 1 < 16) = true by simp; omega]
    simp [pow_succ', mul_ite]
  · rw [mul_ite, mul_zero, ← pow_succ']

theorem bitPoly_POLY : bitPoly POLY = X ^ 15 + X ^ 2 + 1 := by
  have hbits : bitPoly POLY = 1 + X ^ 2 + X ^ 15 := by simp [bitPoly, POLY, Finset.sum_range_succ]
  rw [hbits]
  ring

/-- One iteration multiplies by x and takes G off when the degree reaches 16. -/
theorem bitPoly_crcShift (c : CrcWord) : bitPoly (crcShift c) = X * bitPoly c + (if c.getLsbD 15 then crcGenerator else 0) := by
  have htwo : (X ^ 16 + X ^ 16 : (ZMod 2)[X]) = 0 := CharTwo.add_self_eq_zero _
  rw [← bitPoly_shiftLeft_one, crcShift]
  split
  · rw [bitPoly_xor, bitPoly_POLY, crcGenerator]
    linear_combination - htwo
  · simp

/-- In the ring of remainders modulo G, `k` iterations multiply by x^k. -/
theorem mk_bitPoly_crcShifts (k : Nat) (c : CrcWord) :
    AdjoinRoot.mk crcGenerator (bitPoly (crcShifts k c)) = AdjoinRoot.mk crcGenerator (X ^ k * bitPoly c) := by
  induction k generalizing c with
  | zero => simp [crcShifts]
  | succ k ih =>
    rw [crcShifts, ih, bitPoly_crcShift]
    split <;> simp [pow_succ, mul_assoc, mul_add]

/-- In the ring of remainders modulo G, the accumulator is the data so far times x^16. -/
theorem mk_bitPoly_crcFold (data : Bytes) {c : CrcWord} {p : (ZMod 2)[X]}
    (h : AdjoinRoot.mk crcGenerator (bitPoly c) = AdjoinRoot.mk crcGenerator (p * X ^ 16)) :
    AdjoinRoot.mk crcGenerator (bitPoly (crcFold c data)) =
      AdjoinRoot.mk crcGenerator (data.foldl (fun p b => p * X ^ 8 + bitPoly b) p * X ^ 16) := by
  induction data generalizing c p with
  | nil => exact h
  | cons b data ih =>
    refine ih ?_
    have hbyte : bitPoly (b ++ 0x00#8) = bitPoly b * X ^ 8 := by
      rw [bitPoly_append]
      simp [bitPoly]
    rw [crcStep, mk_bitPoly_crcShifts, bitPoly_xor, setWidth_shiftLeft_eight, hbyte]
    simp only [map_mul, map_add, map_pow] at h ⊢
    linear_combination AdjoinRoot.mk crcGenerator X ^ 8 * h

/-! ## The obligations -/

/-- Settles O14: the eight iterations of `crcStep`, unrolled. -/
theorem crcUpdateShiftsEightTimes : Obligations.CrcUpdateShiftsEightTimes := by
  intro b s
  rw [exec_crcUpd, crcStep, setWidth_shiftLeft_eight]
  rfl

/-- Settles O16: the run of updates between a CRC.CLR and a CRC.RD. -/
theorem crcBlockIsItsExpansion : Obligations.CrcBlockIsItsExpansion :=
  fun data s => ⟨exec_crcBlk data s, execAll_crcClr_crcUpd_crcRd data s⟩

/-- Settles O17: the fold is linear, and INIT is 0. -/
theorem crcIsLinear : Obligations.CrcIsLinear :=
  fun _ _ h => crcFold_xorBytes h INIT INIT

/-- Settles O18: the check of the data is the accumulator that its own two bytes are fed to. -/
theorem crcZeroResidue : Obligations.CrcZeroResidue := by
  intro s
  rw [crc16, crcFold_append]
  exact crcFold_be16_self _

/-- Settles O19: the zeros in front leave the accumulator at INIT. -/
theorem crcIgnoresLeadingZeros : Obligations.CrcIgnoresLeadingZeros := by
  refine fun n s => ⟨?_, crcFold_zeros n⟩
  have hzeros : crcFold INIT (List.replicate n 0x00) = INIT := crcFold_zeros n
  rw [crc16, crcFold_append, hzeros, crc16]

/-- Settles O20: a flipped bit makes another byte. -/
theorem crcSeesEverySingleBitFlip : Obligations.CrcSeesEverySingleBitFlip := by
  intro s i k hi hk
  refine crc16_set_ne hi fun h => ?_
  have hflip : ∀ k < 8, BitVec.ofNat 8 (2 ^ k) ≠ 0#8 := by decide
  exact hflip k hk ((BitVec.xor_right_inj _).1 (h.trans BitVec.xor_zero.symm))

/-- Settles O21: the updates go on from the check of the first part. -/
theorem crcStreams : Obligations.CrcStreams := by
  intro s t u hu
  have hfold : crcFold u.crc t = crc16 (s ++ t) := by rw [hu, crc16, crc16, crcFold_append]
  rw [execAll_crcUpd_crcRd, State.readAfter, hfold]
  rfl

/-- Settles O22: check and data have the same remainder, and the check's degree is below that of G. -/
theorem crcIsPolynomialRemainder : Obligations.CrcIsPolynomialRemainder := by
  intro data
  have hinit : AdjoinRoot.mk crcGenerator (bitPoly INIT) = AdjoinRoot.mk crcGenerator (0 * X ^ 16) := by simp [bitPoly, INIT]
  have hdvd := AdjoinRoot.mk_eq_mk.1 (mk_bitPoly_crcFold data hinit)
  have hdeg : (bitPoly (crc16 data)).degree < crcGenerator.degree := by
    rw [crcGenerator_degree]
    exact degree_bitPoly_lt _
  calc bitPoly (crc16 data)
    _ = bitPoly (crc16 data) %ₘ crcGenerator := ((modByMonic_eq_self_iff crcGenerator_monic).2 hdeg).symm
    _ = (dataPoly data * X ^ 16) %ₘ crcGenerator := modByMonic_eq_of_dvd_sub crcGenerator_monic hdvd

end Sys2Proof.Machine
end

section
/-! BUILD and PARSE (spec/41_frame_build.md R100 to R104, spec/42_frame_parse.md R113): the fields of a frame whose check is right, the
control word by its bit fields, and the obligations about what BUILD answers and PARSE accepts. -/

namespace Sys2Proof.Machine

/-! ## A frame whose check is right -/

section Checked

variable (cw : CtlWord) (addr : Byte) {payload : Bytes} (hp : payload.length ≤ 65535)
include hp

/-- The bytes of a frame behind its control word, by position: `a` is the number of address bytes (R60, R66, R67). -/
theorem checkedFrame_fields {a : Nat} (ha : addrSize cw = a) :
    (checkedFrame cw addr payload).length = 9 + a + payload.length ∧
    (be16At (checkedFrame cw addr payload) (5 + a)).toNat = payload.length ∧
    slice (checkedFrame cw addr payload) (7 + a) (7 + a + payload.length) = payload ∧
    be16At (checkedFrame cw addr payload) (7 + a + payload.length) =
      crc16 (slice (checkedFrame cw addr payload) 1 (7 + a + payload.length)) := by
  subst ha
  have hlen : (checkedFrame cw addr payload).length = 9 + addrSize cw + payload.length := wireFrame_length ..
  have hdecl : declaredLen (checkedFrame cw addr payload) = (checkedFrame cw addr payload).length := declaredLen_wireFrame _ _ _ _ hp
  have hsize : frameAddrSize (checkedFrame cw addr payload) = addrSize cw := frameAddrSize_wireFrame ..
  have hN : (frameLenField (checkedFrame cw addr payload)).toNat = payload.length := by
    rw [checkedFrame, frameLenField_wireFrame, BitVec.toNat_ofNat]
    omega
  have hpay : framePayload (checkedFrame cw addr payload) = payload := framePayload_wireFrame _ _ _ _ hp
  have hcrc : receivedCrc (checkedFrame cw addr payload) = computedCrc (checkedFrame cw addr payload) := by
    rw [checkedFrame, receivedCrc_wireFrame _ _ _ _ hp, computedCrc_wireFrame _ _ _ _ hp]
  have hend : declaredLen (checkedFrame cw addr payload) - 2 = 7 + addrSize cw + payload.length := by omega
  refine ⟨hlen, ?_, ?_, ?_⟩
  · rw [← hN, frameLenField, hsize]
  · rwa [framePayload, hsize, hN] at hpay
  · rwa [receivedCrc, computedCrc, hend] at hcrc

/-- PARSE accepts a frame whose check is right (R69). -/
theorem parseFrame_checkedFrame : parseFrame (checkedFrame cw addr payload) = .ok (frameRecord (checkedFrame cw addr payload)) := by
  refine parseFrame_of_valid rfl (declaredLen_wireFrame _ _ _ _ hp).le ?_
  rw [checkedFrame, receivedCrc_wireFrame _ _ _ _ hp, computedCrc_wireFrame _ _ _ _ hp]

/-- The record of a frame whose check is right, field by field (R65, R73). -/
theorem frameRecord_checkedFrame :
    frameRecord (checkedFrame cw addr payload) =
      { cw := cw, protoType := cwProtoType cw, protoVer := cwProtoVer cw, rs485 := cwRs485 cw, notify := cwNotify cw,
        category := cwCategory cw, code := cwCode cw, addr := if cwRs485 cw then some addr else none,
        length := BitVec.ofNat 16 payload.length, payload := payload, crc := crc16 (frameBody cw addr payload),
        frameLen := (checkedFrame cw addr payload).length } := by
  have haddr : (if cwRs485 cw then some (byteAt (checkedFrame cw addr payload) 5) else none) = if cwRs485 cw then some addr else none := by
    split
    next hset => rw [checkedFrame, byteAt_wireFrame_addr hset]
    next => rfl
  simp only [frameRecord, checkedFrame, frameCw_wireFrame, frameLenField_wireFrame, framePayload_wireFrame _ _ _ _ hp,
    receivedCrc_wireFrame _ _ _ _ hp, declaredLen_wireFrame _ _ _ _ hp] at haddr ⊢
  rw [haddr]

end Checked

/-- BUILD of a payload that fits answers the frame. -/
theorem exec_build_of_fits {payload : Bytes} (hp : payload.length ≤ 65535) (category code : Byte) (rs485 notify : Bool) (addr : Byte)
    (s : State) :
    exec (.build category code payload rs485 notify addr) s =
      .next (s.respond (.bytes (checkedFrame (assembleCw s.cfg category code rs485 notify) addr payload))) := by
  rw [exec_build, if_neg hp.not_gt]

/-! ## The control word that BUILD assembles, by bit fields (R63, R64) -/

section ControlWord

variable (cfg : Config) (category code : Byte) (rs485 notify : Bool)

theorem cwProtoType_assembleCw : cwProtoType (assembleCw cfg category code rs485 notify) = cfg.protoType :=
  extractLsb'_eq_byte fun k hk => by
    rw [getLsbD_assembleCw _ _ _ _ _ (by omega), if_neg (by omega), if_neg (by omega), if_neg (by omega), Nat.add_sub_cancel_left]

theorem cwProtoVer_assembleCw : cwProtoVer (assembleCw cfg category code rs485 notify) = cfg.protoVer :=
  extractLsb'_eq_byte fun k hk => by
    rw [getLsbD_assembleCw _ _ _ _ _ (by omega), if_neg (by omega), if_neg (by omega), if_pos (by omega), Nat.add_sub_cancel_left]

theorem cwCode_assembleCw : cwCode (assembleCw cfg category code rs485 notify) = code :=
  extractLsb'_eq_byte fun k hk => by
    rw [getLsbD_assembleCw _ _ _ _ _ (by omega), if_pos (by omega), Nat.zero_add]

/-- Bits 15:8 are the category with the flags ORed into its bits 5 and 4. -/
theorem getLsbD_assembleCw_category {k : Nat} (hk : k < 8) :
    (assembleCw cfg category code rs485 notify).getLsbD (8 + k) =
      (category.getLsbD k || (decide (k = 5) && rs485) || (decide (k = 4) && notify)) := by
  rw [getLsbD_assembleCw _ _ _ _ _ (by omega), if_neg (by omega), if_pos (by omega), Nat.add_sub_cancel_left]
  simp only [show 8 + k = 13 ↔ k = 5 by omega, show 8 + k = 12 ↔ k = 4 by omega]

theorem cwRs485_assembleCw : cwRs485 (assembleCw cfg category code rs485 notify) = (rs485 || category.getLsbD 5) := by
  rw [cwRs485, getLsbD_assembleCw_category cfg category code rs485 notify (show 5 < 8 by omega)]
  simp [Bool.or_comm]

theorem cwNotify_assembleCw : cwNotify (assembleCw cfg category code rs485 notify) = (notify || category.getLsbD 4) := by
  rw [cwNotify, getLsbD_assembleCw_category cfg category code rs485 notify (show 4 < 8 by omega)]
  simp [Bool.or_comm]

/-- A flag at its place in a byte. -/
theorem getLsbD_flag_byte (b : Bool) (n : Nat) {k : Nat} (hk : k < 8) :
    ((BitVec.ofBool b).setWidth 8 <<< n).getLsbD k = (decide (k = n) && b) := by
  rw [BitVec.getLsbD_shiftLeft, BitVec.getLsbD_setWidth, BitVec.getLsbD_ofBool]
  by_cases h : k = n
  · simp [h, h ▸ hk]
  · rcases Nat.lt_or_gt_of_ne h with hlt | hgt
    · simp [h, hlt]
    · simp [h, show k - n ≠ 0 by omega]

theorem cwCategory_assembleCw :
    cwCategory (assembleCw cfg category code rs485 notify) =
      category ||| ((BitVec.ofBool rs485).setWidth 8 <<< 5) ||| ((BitVec.ofBool notify).setWidth 8 <<< 4) :=
  extractLsb'_eq_byte fun k hk => by
    rw [getLsbD_assembleCw_category cfg category code rs485 notify hk, BitVec.getLsbD_or, BitVec.getLsbD_or, getLsbD_flag_byte rs485 5 hk,
      getLsbD_flag_byte notify 4 hk]

end ControlWord

/-! ## PARSE and the bytes after the frame -/

theorem parseFrame_append {raw : Bytes} {r : Frame} (h : parseFrame raw = .ok r) (extra : Bytes) : parseFrame (raw ++ extra) = .ok r := by
  obtain ⟨hhead, hcomplete, hcrc, rfl⟩ := parseFrame_ok h
  have hlen := (frameComplete_iff raw).1 hcomplete
  rw [← frameRecord_append extra hcomplete]
  refine parseFrame_of_valid ?_ ?_ ?_
  · rw [byteAt_append_left extra (by omega), hhead]
  · exact ((frameComplete_iff _).1 (frameComplete_append extra hcomplete)).2.2
  · rw [receivedCrc_append extra hcomplete, computedCrc_append extra hcomplete, hcrc]

/-- The frame alone, whatever stood behind it. -/
theorem parseFrame_take {raw : Bytes} {r : Frame} (h : parseFrame raw = .ok r) : parseFrame (raw.take r.frameLen) = .ok r := by
  obtain ⟨hhead, hcomplete, hcrc, rfl⟩ := parseFrame_ok h
  obtain ⟨hcut, hcutlen⟩ := frameComplete_take hcomplete
  have hge := declaredLen_ge raw
  have hsplit : raw.take (declaredLen raw) ++ raw.drop (declaredLen raw) = raw := List.take_append_drop _ _
  show parseFrame (raw.take (declaredLen raw)) = .ok (frameRecord raw)
  rw [← frameRecord_take hcomplete]
  refine parseFrame_of_valid ?_ ?_ ?_
  · rw [byteAt_take (by omega), hhead]
  · exact ((frameComplete_iff _).1 hcut).2.2
  · rw [← receivedCrc_append (raw.drop (declaredLen raw)) hcut, ← computedCrc_append (raw.drop (declaredLen raw)) hcut, hsplit, hcrc]

/-- PARSE answers a record exactly when `parseFrame` does. -/
theorem exec_parse_frame_iff (raw : Bytes) (s : State) (r : Frame) :
    exec (.parse raw) s = .next { s with reply := some (.frame r) } ↔ parseFrame raw = .ok r := by
  constructor
  · intro h
    cases hp : parseFrame raw with
    | ok r' =>
      rw [exec_parse_of_ok hp] at h
      injection h with h
      cases congrArg State.reply h
      rfl
    | error e =>
      rw [exec_parse_of_error hp] at h
      injection h with h
      cases congrArg State.reply h
  · exact fun h => exec_parse_of_ok h s

/-! ## The obligations -/

/-- Settles O23: in each format the fields are those of `checkedFrame_fields`. -/
theorem buildAnswersWireFrame : Obligations.BuildAnswersWireFrame := by
  intro category code payload rs485 notify addr s hp
  have hcw : be32At (checkedFrame (assembleCw s.cfg category code rs485 notify) addr payload) 1 =
    assembleCw s.cfg category code rs485 notify := frameCw_wireFrame ..
  refine ⟨_, exec_build_of_fits hp .., rfl, fun hbit => ?_, fun hbit => ?_⟩ <;> rw [hcw] at hbit
  · have ha : addrSize (assembleCw s.cfg category code rs485 notify) = 0 := if_neg (by rw [cwRs485, hbit]; exact Bool.false_ne_true)
    exact checkedFrame_fields _ addr hp ha
  · have ha : addrSize (assembleCw s.cfg category code rs485 notify) = 1 := if_pos hbit
    obtain ⟨hlen, hN, hpay, hcrc⟩ := checkedFrame_fields _ addr hp ha
    exact ⟨hlen, byteAt_wireFrame_addr hbit .., hN, hpay, hcrc⟩

/-- Settles O24: the control word is read back from the frame, and each of its fields is a run of the bits of `getLsbD_assembleCw`. -/
theorem buildControlWordBits : Obligations.BuildControlWordBits := by
  intro category code payload rs485 notify addr s hp
  have hcw : be32At (checkedFrame (assembleCw s.cfg category code rs485 notify) addr payload) 1 =
    assembleCw s.cfg category code rs485 notify := frameCw_wireFrame ..
  refine ⟨_, exec_build_of_fits hp .., ?_⟩
  rw [hcw]
  refine ⟨cwProtoType_assembleCw .., cwProtoVer_assembleCw .., ?_, cwRs485_assembleCw .., cwNotify_assembleCw .., ?_,
    cwCode_assembleCw ..⟩ <;> refine BitVec.eq_of_getLsbD_eq fun k hk => ?_
  · have hbits := getLsbD_assembleCw_category s.cfg category code rs485 notify (show 6 + k < 8 by omega)
    rw [BitVec.getLsbD_extractLsb', BitVec.getLsbD_extractLsb', show 14 + k = 8 + (6 + k) by omega, hbits]
    simp [show 6 + k ≠ 5 by omega, show 6 + k ≠ 4 by omega]
  · have hbits := getLsbD_assembleCw_category s.cfg category code rs485 notify (show k < 8 by omega)
    rw [BitVec.getLsbD_extractLsb', BitVec.getLsbD_extractLsb', hbits]
    simp [show k ≠ 5 by omega, show k ≠ 4 by omega]

/-- Settles O25: the first branch of `exec_build`. -/
theorem buildRefusesLongPayload : Obligations.BuildRefusesLongPayload := by
  intro category code payload rs485 notify addr s hp
  rw [exec_build, if_pos hp]
  rfl

/-- Settles O26: PARSE returns the record of the frame, whose fields are those of the assembled control word. -/
theorem buildParseRoundTrip : Obligations.BuildParseRoundTrip := by
  intro category code payload rs485 notify addr s u hp
  refine ⟨_, _, exec_build_of_fits hp .., exec_parse_of_ok (parseFrame_checkedFrame _ addr hp) u, ?_⟩
  rw [frameRecord_checkedFrame _ addr hp]
  refine ⟨cwCode_assembleCw .., rfl, ?_, rfl, cwCategory_assembleCw .., cwRs485_assembleCw .., cwNotify_assembleCw ..,
    cwProtoType_assembleCw .., cwProtoVer_assembleCw .., rfl⟩
  rw [BitVec.toNat_ofNat]
  omega

/-- Settles O28: the four tests of `parseFrame`. -/
theorem parseAcceptsExactlyValidFrames : Obligations.ParseAcceptsExactlyValidFrames := by
  intro raw s
  simp only [exec_parse_frame_iff, parseFrame_ok_iff, exists_and_left, exists_eq, and_true]
  rfl

/-- Settles O29: what stands behind the frame is not read, and cutting it off leaves the frame. -/
theorem parseIgnoresBytesAfterFrame : Obligations.ParseIgnoresBytesAfterFrame :=
  fun _ extra s _ h => ⟨exec_parse_of_ok (parseFrame_append h extra) s, exec_parse_of_ok (parseFrame_take (parseFrame_append h extra)) s⟩

end Sys2Proof.Machine
end

section
/-! The scan (spec/43_frame_extract.md R121 to R129): one equation for each thing that can stand at the head of the buffer, the induction
that follows them, how a scan of two strings is made of two scans, and the obligations about EXTRACT. -/

namespace Sys2Proof.Machine

/-! ## One equation for each kind of head -/

/-- A byte that is not the header moves the cursor by one and does nothing else (step 1 of R121). -/
theorem Scan.turn_cons_of_ne {b : Byte} (t : Bytes) (hb : b ≠ HEADER) :
    Scan.start.turn (b :: t) = ({ (Scan.start.turn t).1 with i := 1 + (Scan.start.turn t).1.i }, (Scan.start.turn t).2) := by
  have hskip : skipToHeader (b :: t) Scan.start.i = 1 + skipToHeader t Scan.start.i := by
    rw [Scan.start, skipToHeader_cons_zero, if_neg hb]
  have hdrop : (b :: t).drop (1 + skipToHeader t Scan.start.i) = t.drop (skipToHeader t Scan.start.i) := by
    rw [Nat.add_comm, List.drop_succ_cons]
  simp only [Scan.turn, hskip, hdrop]
  cases candidate (t.drop (skipToHeader t Scan.start.i)) <;> simp only [Nat.add_assoc]

theorem extractFrames_cons_of_ne {b : Byte} (t : Bytes) (hb : b ≠ HEADER) :
    extractFrames (b :: t) = { extractFrames t with i := 1 + (extractFrames t).i } := by
  rw [extractFrames_turn (b :: t), extractFrames_turn t, Scan.turn_cons_of_ne t hb]
  have hdrop : (b :: t).drop (1 + (Scan.start.turn t).1.i) = t.drop (Scan.start.turn t).1.i := by
    rw [Nat.add_comm, List.drop_succ_cons]
  simp only [hdrop]
  split
  · simp only [Nat.add_assoc]
  · rfl

/-- An incomplete candidate at the head ends the scan there (R123). -/
theorem extractFrames_of_incomplete {t : Bytes} (hhead : byteAt t 0 = HEADER) (hincomplete : frameComplete t = false) :
    extractFrames t = Scan.start := by
  have hi : skipToHeader t Scan.start.i = 0 := skipToHeader_of_header hhead
  have hturn : Scan.start.turn t = (Scan.start, false) := by
    rcases Scan.start.turn_cases t with ⟨-, hstop⟩ | ⟨hcomplete, -⟩ | ⟨hcomplete, -⟩
    · rw [hstop, hi]
      rfl
    all_goals
      rw [hi, List.drop_zero, hincomplete] at hcomplete
      cases hcomplete
  rw [extractFrames_turn, hturn]
  rfl

/-- A complete candidate at the head whose CRC does not match costs its header byte (R124). -/
theorem extractFrames_of_crc_ne {t : Bytes} (hhead : byteAt t 0 = HEADER) (hcomplete : frameComplete t = true)
    (hcrc : receivedCrc t ≠ computedCrc t) :
    extractFrames t =
      { i := 1 + (extractFrames (t.drop 1)).i, frames := (extractFrames (t.drop 1)).frames,
        discards := 1 + (extractFrames (t.drop 1)).discards } :=
  scanDiscardResumesAfterHeader t hhead hcomplete hcrc

/-- A valid frame at the head is accepted with PARSE's record (R125). -/
theorem extractFrames_append_of_valid {f : Bytes} {r : Frame} (h : parseFrame f = .ok r) (hlen : r.frameLen = f.length) (t : Bytes) :
    extractFrames (f ++ t) =
      { i := f.length + (extractFrames t).i, frames := r :: (extractFrames t).frames, discards := (extractFrames t).discards } := by
  obtain ⟨hhead, hcomplete, hcrc, hr⟩ := parseFrame_ok (parseFrame_append h t)
  have hi : skipToHeader (f ++ t) Scan.start.i = 0 := skipToHeader_of_header hhead
  have hdecl : declaredLen (f ++ t) = f.length := by rw [← hlen, hr]; rfl
  have hturn : Scan.start.turn (f ++ t) = ({ i := f.length, frames := [r], discards := 0 }, true) := by
    rcases Scan.start.turn_cases (f ++ t) with ⟨hstop, -⟩ | ⟨-, -, haccept⟩ | ⟨-, hdiscard, -⟩
    · rw [hi, List.drop_zero, hcomplete] at hstop
      cases hstop
    · rw [haccept, hi, List.drop_zero, hdecl, ← hr, Nat.zero_add]
      rfl
    · rw [hi, List.drop_zero] at hdiscard
      exact absurd hcrc hdiscard
  rw [extractFrames_turn, hturn]
  simp only [if_true, List.drop_left, List.singleton_append, Nat.zero_add]

/-! ## The induction that follows the scan -/

/-- Every buffer is empty, or has at its head a byte to skip, an incomplete candidate, one to discard, or a valid frame; each of the last
but the second is followed by a shorter buffer. -/
theorem scan_induction {P : Bytes → Prop} (nil : P []) (skip : ∀ b t, b ≠ HEADER → P t → P (b :: t))
    (stop : ∀ t, byteAt t 0 = HEADER → frameComplete t = false → P t)
    (discard : ∀ t, byteAt t 0 = HEADER → frameComplete t = true → receivedCrc t ≠ computedCrc t → P (t.drop 1) → P t)
    (accept : ∀ f t r, parseFrame f = .ok r → r.frameLen = f.length → P t → P (f ++ t)) (buf : Bytes) : P buf := by
  induction hn : buf.length using Nat.strong_induction_on generalizing buf with
  | _ n ih =>
    cases buf with
    | nil => exact nil
    | cons b t =>
      rw [List.length_cons] at hn
      by_cases hb : b = HEADER
      · subst hb
        rcases candidate_cases (HEADER :: t) with ⟨hincomplete, -⟩ | ⟨hcomplete, hcrc, -⟩ | ⟨hcomplete, hcrc, -⟩
        · exact stop _ rfl hincomplete
        · have hge := declaredLen_ge (HEADER :: t)
          have hlen := ((frameComplete_iff _).1 hcomplete).2.2
          have hvalid := parseFrame_take (parseFrame_of_valid rfl hlen hcrc)
          have hrest : P ((HEADER :: t).drop (declaredLen (HEADER :: t))) :=
            ih _ (by rw [List.length_drop, List.length_cons]; omega) _ rfl
          have hcut : (frameRecord (HEADER :: t)).frameLen = ((HEADER :: t).take (frameRecord (HEADER :: t)).frameLen).length :=
            (List.length_take_of_le hlen).symm
          have hsplit := accept _ _ _ hvalid hcut hrest
          rwa [show (frameRecord (HEADER :: t)).frameLen = declaredLen (HEADER :: t) from rfl, List.take_append_drop] at hsplit
        · exact discard _ rfl hcomplete hcrc (ih t.length (by omega) t rfl)
      · exact skip b t hb (ih t.length (by omega) t rfl)

/-! ## What every scan keeps -/

/-- Where the scan ends: at the end of the buffer, or at an incomplete candidate (R126). -/
theorem extractFrames_end (buf : Bytes) :
    (extractFrames buf).i = buf.length ∨
      ((extractFrames buf).i < buf.length ∧ byteAt (buf.drop (extractFrames buf).i) 0 = HEADER ∧
        frameComplete (buf.drop (extractFrames buf).i) = false) := by
  induction buf using scan_induction with
  | nil => exact .inl rfl
  | skip b t hb ih =>
    rw [extractFrames_cons_of_ne t hb, List.length_cons]
    simp only [Nat.add_comm 1, List.drop_succ_cons, Nat.add_right_cancel_iff, Nat.add_lt_add_iff_right]
    exact ih
  | stop t hhead hincomplete =>
    rw [extractFrames_of_incomplete hhead hincomplete]
    have hpos : 0 < t.length := by
      cases t with
      | nil => cases hhead
      | cons => exact Nat.succ_pos _
    exact .inr ⟨hpos, hhead, hincomplete⟩
  | discard t hhead hcomplete hcrc ih =>
    rw [extractFrames_of_crc_ne hhead hcomplete hcrc]
    have hpos := ((frameComplete_iff t).1 hcomplete).1
    rw [List.drop_drop, List.length_drop] at ih
    simp only
    exact ih.imp (by omega) fun h => ⟨by omega, h.2⟩
  | accept f t r hf hlen ih =>
    rw [extractFrames_append_of_valid hf hlen, List.length_append]
    simp only [List.drop_append, Nat.add_sub_cancel_left, List.drop_eq_nil_of_le (Nat.le_add_right f.length _), List.nil_append,
      Nat.add_left_cancel_iff, Nat.add_lt_add_iff_left]
    exact ih

theorem extractFrames_le (buf : Bytes) : (extractFrames buf).i ≤ buf.length :=
  (extractFrames_end buf).elim Nat.le_of_eq fun h => Nat.le_of_lt h.1

/-- Bytes that come later are scanned from where the scan of the earlier ones ended: its results stay, and the rest is looked at again
with them (R144). -/
theorem extractFrames_append (a b : Bytes) :
    extractFrames (a ++ b) =
      { i := (extractFrames a).i + (extractFrames (a.drop (extractFrames a).i ++ b)).i
        frames := (extractFrames a).frames ++ (extractFrames (a.drop (extractFrames a).i ++ b)).frames
        discards := (extractFrames a).discards + (extractFrames (a.drop (extractFrames a).i ++ b)).discards } := by
  induction a using scan_induction with
  | nil => simp [Scan.start]
  | skip c t hc ih =>
    rw [List.cons_append, extractFrames_cons_of_ne _ hc, extractFrames_cons_of_ne t hc, ih]
    simp only [Nat.add_comm 1, List.drop_succ_cons, Nat.add_right_comm]
  | stop t hhead hincomplete =>
    rw [extractFrames_of_incomplete hhead hincomplete]
    simp [Scan.start]
  | discard t hhead hcomplete hcrc ih =>
    have hpos := ((frameComplete_iff t).1 hcomplete).1
    have hhead' : byteAt (t ++ b) 0 = HEADER := by rw [byteAt_append_left b (by omega), hhead]
    have hcrc' : receivedCrc (t ++ b) ≠ computedCrc (t ++ b) := by
      rwa [receivedCrc_append b hcomplete, computedCrc_append b hcomplete]
    have hdrop : (t ++ b).drop 1 = t.drop 1 ++ b := List.drop_append_of_le_length (by omega)
    rw [extractFrames_of_crc_ne hhead' (frameComplete_append b hcomplete) hcrc', extractFrames_of_crc_ne hhead hcomplete hcrc, hdrop, ih]
    simp only [List.drop_drop, Nat.add_assoc]
  | accept f t r hf hlen ih =>
    rw [List.append_assoc, extractFrames_append_of_valid hf hlen, extractFrames_append_of_valid hf hlen, ih]
    simp only [List.drop_append, Nat.add_sub_cancel_left, List.drop_eq_nil_of_le (Nat.le_add_right f.length _), List.nil_append,
      Nat.add_assoc, List.cons_append]

/-- A frame alone in the buffer is the one frame found, and all of it is consumed. -/
theorem extractFrames_of_valid {f : Bytes} {r : Frame} (h : parseFrame f = .ok r) (hlen : r.frameLen = f.length) :
    extractFrames f = { i := f.length, frames := [r], discards := 0 } := by
  have hscan := extractFrames_append_of_valid h hlen []
  rwa [List.append_nil] at hscan

/-- Bytes each of which is skipped or discarded, where they stand in front of `g`, are all consumed, with one discard for each header. -/
theorem extractFrames_append_of_discards (bad g : Bytes)
    (h : ∀ j, j < bad.length → byteAt bad j = HEADER →
      frameComplete ((bad ++ g).drop j) = true ∧ receivedCrc ((bad ++ g).drop j) ≠ computedCrc ((bad ++ g).drop j)) :
    extractFrames (bad ++ g) =
      { i := bad.length + (extractFrames g).i, frames := (extractFrames g).frames,
        discards := bad.count HEADER + (extractFrames g).discards } := by
  induction bad with
  | nil => simp
  | cons b t ih =>
    have ht := ih fun j hj => h (j + 1) (Nat.succ_lt_succ hj)
    by_cases hb : b = HEADER
    · subst hb
      obtain ⟨hcomplete, hcrc⟩ := h 0 (Nat.succ_pos _) rfl
      rw [List.drop_zero] at hcomplete hcrc
      rw [extractFrames_of_crc_ne rfl hcomplete hcrc, List.cons_append, List.drop_succ_cons, List.drop_zero, ht, List.count_cons_self,
        List.length_cons]
      simp only [Scan.mk.injEq, true_and]
      omega
    · rw [List.cons_append, extractFrames_cons_of_ne _ hb, ht, List.count_cons_of_ne hb, List.length_cons]
      simp only [Scan.mk.injEq, and_true]
      omega

/-! ## Where the frames stand -/

/-- The frames stand in the buffer at the given places, each PARSE's record of the bytes there, one behind the other. -/
def FramesStandAt (buf : Bytes) (starts : List Nat) (frames : List Frame) : Prop :=
  List.Forall₂ (fun p f => buf[p]? = some HEADER ∧ parseFrame (slice buf p (p + f.frameLen)) = .ok f) starts frames ∧
  (starts.zip frames).Pairwise fun x y => x.1 + x.2.frameLen ≤ y.1

/-- Bytes in front move the places. -/
theorem FramesStandAt.append_left {buf : Bytes} {starts : List Nat} {frames : List Frame} (h : FramesStandAt buf starts frames)
    (pre : Bytes) : FramesStandAt (pre ++ buf) (starts.map (pre.length + ·)) frames := by
  obtain ⟨hat, horder⟩ := h
  refine ⟨?_, ?_⟩
  · rw [List.forall₂_map_left_iff]
    refine hat.imp fun p f ⟨hhead, hparse⟩ => ⟨?_, ?_⟩
    · rw [List.getElem?_append_right (Nat.le_add_right _ _), Nat.add_sub_cancel_left, hhead]
    · rw [Nat.add_assoc, slice_append_right, hparse]
  · rw [List.zip_map_left, List.pairwise_map]
    exact horder.imp fun hle => by simp only [Prod.map_fst, Prod.map_snd, id_eq]; omega

/-- A valid frame in front stands at 0. -/
theorem FramesStandAt.cons_valid {buf : Bytes} {starts : List Nat} {frames : List Frame} (h : FramesStandAt buf starts frames)
    {f : Bytes} {r : Frame} (hf : parseFrame f = .ok r) (hlen : r.frameLen = f.length) :
    FramesStandAt (f ++ buf) (0 :: starts.map (f.length + ·)) (r :: frames) := by
  obtain ⟨hat, horder⟩ := h.append_left f
  obtain ⟨hhead, hcomplete, -, -⟩ := parseFrame_ok hf
  have hpos := ((frameComplete_iff f).1 hcomplete).1
  refine ⟨.cons ⟨?_, ?_⟩ hat, List.pairwise_cons.2 ⟨fun y hy => ?_, horder⟩⟩
  · rw [List.getElem?_append_left (by omega), getElem?_eq_byteAt (by omega), hhead]
  · rw [Nat.zero_add, hlen, slice_append_left buf le_rfl, slice_zero_length, hf]
  · obtain ⟨p, -, hp⟩ := List.mem_map.1 (List.of_mem_zip hy).1
    rw [← hp, hlen, Nat.zero_add]
    exact Nat.le_add_right _ _

/-- The frames of a scan stand in the buffer in their order (R52). -/
theorem exists_framesStandAt (buf : Bytes) : ∃ starts, FramesStandAt buf starts (extractFrames buf).frames := by
  induction buf using scan_induction with
  | nil => exact ⟨[], .nil, .nil⟩
  | skip b t hb ih =>
    obtain ⟨starts, h⟩ := ih
    rw [extractFrames_cons_of_ne t hb]
    exact ⟨_, h.append_left [b]⟩
  | stop t hhead hincomplete =>
    rw [extractFrames_of_incomplete hhead hincomplete]
    exact ⟨[], .nil, .nil⟩
  | discard t hhead hcomplete hcrc ih =>
    obtain ⟨starts, h⟩ := ih
    rw [extractFrames_of_crc_ne hhead hcomplete hcrc]
    have hfront := h.append_left (t.take 1)
    rw [List.take_append_drop] at hfront
    exact ⟨_, hfront⟩
  | accept f t r hf hlen ih =>
    obtain ⟨starts, h⟩ := ih
    rw [extractFrames_append_of_valid hf hlen]
    exact ⟨_, h.cons_valid hf hlen⟩

/-! ## The obligations -/

/-- Settles O31: the first turn skips the byte. -/
theorem scanSkipsNonHeader : Obligations.ScanSkipsNonHeader :=
  fun _ t hb => extractFrames_cons_of_ne t hb

/-- Settles O33: the first turn accepts the frame. -/
theorem scanAcceptsValidFrame : Obligations.ScanAcceptsValidFrame :=
  fun _ t _ h hlen => extractFrames_append_of_valid h hlen t

/-- Settles O34: the three lengths are those that `frameComplete` asks for. -/
theorem scanStopsAtIncompleteCandidate : Obligations.ScanStopsAtIncompleteCandidate :=
  fun t hhead h => extractFrames_of_incomplete hhead ((frameComplete_eq_false_iff t).2 h)

/-- Settles O35: both bounds leave more turns than the buffer has bytes. -/
theorem scanEndsWithinItsBound : Obligations.ScanEndsWithinItsBound := by
  intro buf extra
  have hstart : Scan.start.i = 0 := rfl
  exact Scan.loop_bound buf _ _ Scan.start (Nat.zero_le _) (by omega) (by omega)

/-- Settles O36: `extractFrames_end`, the candidate's first byte read in the buffer. -/
theorem consumedEndsAtIncompleteCandidate : Obligations.ConsumedEndsAtIncompleteCandidate := by
  refine fun buf => ⟨extractFrames_le buf, fun hlt => ?_⟩
  rcases extractFrames_end buf with heq | ⟨-, hhead, hincomplete⟩
  · exact absurd heq hlt.ne
  · rw [byteAt_drop, Nat.add_zero] at hhead
    exact ⟨by rw [getElem?_eq_byteAt hlt, hhead]; rfl, hincomplete⟩

/-- Settles O38: the first frame is accepted in front of the second, which is then alone. -/
theorem twoFramesBackToBack : Obligations.TwoFramesBackToBack := by
  intro f g rf rg s hf hflen hg hglen hbuf
  have hscan : extractFrames s.buf = { i := f.length + g.length, frames := [rf, rg], discards := 0 } := by
    rw [hbuf, extractFrames_append_of_valid hf hflen, extractFrames_of_valid hg hglen]
  rw [exec_extract, hscan]
  rfl

/-- Settles O39: every byte of the damaged frame is skipped or discarded, its header included, and the valid frame is then alone. -/
theorem damagedFrameThenValidFrame : Obligations.DamagedFrameThenValidFrame := by
  intro bad g r s hhead hlen hcrc hinner hg hglen hbuf
  have hcomplete := frameComplete_of_length hlen.le
  have hall : ∀ j, j < bad.length → byteAt bad j = HEADER →
      frameComplete ((bad ++ g).drop j) = true ∧ receivedCrc ((bad ++ g).drop j) ≠ computedCrc ((bad ++ g).drop j) := by
    intro j hj hjhead
    rcases Nat.eq_zero_or_pos j with rfl | hpos
    · rw [List.drop_zero, receivedCrc_append g hcomplete, computedCrc_append g hcomplete]
      exact ⟨frameComplete_append g hcomplete, hcrc⟩
    · exact hinner j hpos hj hjhead
  have hmem : HEADER ∈ bad := by
    have hpos := ((frameComplete_iff bad).1 hcomplete).1
    exact List.mem_of_getElem? ((getElem?_eq_byteAt (show 0 < bad.length by omega)).trans (congrArg some hhead))
  refine ⟨List.count_pos_iff.2 hmem, ?_⟩
  have hscan : extractFrames s.buf = { i := bad.length + g.length, frames := [r], discards := bad.count HEADER } := by
    rw [hbuf, extractFrames_append_of_discards bad g hall, extractFrames_of_valid hg hglen, Nat.add_zero]
  rw [exec_extract, hscan]
  rfl

end Sys2Proof.Machine
end

section
/-! The reassembly buffer and FEED (spec/44_reassembly_buffer.md R135 to R144, spec/70_reset_and_hazards.md R182): pushes one after another,
FEEDs one after another, frames that arrive, and the obligations about them. -/

namespace Sys2Proof.Machine

/-! ## Pushing -/

@[simp] theorem acceptedCount_none (fill len : Nat) : acceptedCount none fill len = len := rfl

@[simp] theorem acceptedCount_some (c fill len : Nat) : acceptedCount (some c) fill len = min len (c - fill) := rfl

@[simp] theorem State.push_nil (s : State) : s.push [] = s := by
  simp [State.push, ovfAfterPush]

/-- A full buffer takes nothing, and a chunk with a byte in it sets `OVF`. -/
theorem State.push_of_full {s : State} {c : Nat} (hcap : s.cfg.cap = some c) (hfull : c ≤ s.buf.length) {chunk : Bytes} (hne : chunk ≠ []) :
    s.push chunk = { s with ovf := true } := by
  have hpos := List.length_pos_iff.2 hne
  simp [State.push, ovfAfterPush, hcap, Nat.sub_eq_zero_of_le hfull, hpos]

/-- What is accepted of two chunks is what is accepted of the one and then of the other. -/
theorem acceptedCount_add (cap : Option Nat) (fill n m : Nat) :
    acceptedCount cap fill (n + m) = acceptedCount cap fill n + acceptedCount cap (fill + acceptedCount cap fill n) m := by
  cases cap with
  | none => rfl
  | some c =>
    simp only [acceptedCount_some]
    omega

/-- After a chunk that did not fit there is no room for another. -/
theorem acceptedCount_of_dropped {cap : Option Nat} {fill n : Nat} (h : acceptedCount cap fill n < n) (m : Nat) :
    acceptedCount cap (fill + acceptedCount cap fill n) m = 0 := by
  cases cap with
  | none => exact absurd h (Nat.lt_irrefl _)
  | some c =>
    simp only [acceptedCount_some] at h ⊢
    omega

/-- Two pushes are one push of both chunks (R136). -/
theorem State.push_push (s : State) (a b : Bytes) : (s.push a).push b = s.push (a ++ b) := by
  have hle := acceptedCount_le s.cfg.cap s.buf.length a.length
  simp only [State.push, ovfAfterPush, List.length_append, List.length_take, Nat.min_eq_left hle, acceptedCount_add, List.append_assoc]
  rcases hle.lt_or_eq with hdropped | hfits
  · rw [acceptedCount_of_dropped hdropped, List.take_zero, List.append_nil, Nat.add_zero, List.take_append_of_le_length hle]
    simp [hdropped, Nat.lt_add_right b.length hdropped]
  · rw [hfits, List.take_length, List.take_length_add_append]
    simp

/-- BUF.PUSHB of each byte leaves what one push of all leaves, but for the reply. -/
theorem execAll_bufPushb (chunk : Bytes) (s : State) :
    ∃ r, execAll (chunk.map .bufPushb) s = .next { s.push chunk with reply := r } := by
  induction chunk generalizing s with
  | nil => exact ⟨s.reply, by rw [State.push_nil]; rfl⟩
  | cons b chunk ih =>
    obtain ⟨r, hr⟩ := ih ((s.push [b]).respond (.accepted (acceptedCount s.cfg.cap s.buf.length 1)))
    refine ⟨r, ?_⟩
    rw [List.map_cons, execAll_cons_of_next _ (exec_bufPushb b s), hr, ← List.singleton_append (x := b) (l := chunk), ← State.push_push]
    rfl

/-! ## FEEDs one after another -/

theorem State.hasRoom_of_le {s t : State} {n m : Nat} (h : s.hasRoom n = true) (hcfg : t.cfg = s.cfg)
    (hle : t.buf.length + m ≤ s.buf.length + n) : t.hasRoom m = true := by
  rw [State.hasRoom_iff] at *
  rw [hcfg]
  exact fun c hc => le_trans hle (h c hc)

theorem runFeeds_cons_of_some {chunk : Bytes} {rest : List Bytes} {s u : State} {frames : List Frame} {discards : Nat}
    (h : runFeeds rest (s.feedChunk chunk) = some (frames, discards, u)) :
    runFeeds (chunk :: rest) s =
      some ((extractFrames (s.push chunk).buf).frames ++ frames, (extractFrames (s.push chunk).buf).discards + discards, u) := by
  simp only [runFeeds, exec_feed, State.feedChunk_reply, h]

/-- FEEDs of chunks that fit together find what one scan of all their bytes finds, behind what was in the buffer, and leave what that
scan leaves (R144). -/
theorem runFeeds_of_room (chunk : Bytes) (rest : List Bytes) (s : State) (h : s.hasRoom (chunk ++ rest.flatten).length = true) :
    ∃ r, runFeeds (chunk :: rest) s =
      some ((extractFrames (s.buf ++ (chunk ++ rest.flatten))).frames, (extractFrames (s.buf ++ (chunk ++ rest.flatten))).discards,
        { s with
          buf := (s.buf ++ (chunk ++ rest.flatten)).drop (extractFrames (s.buf ++ (chunk ++ rest.flatten))).i
          reply := r }) := by
  have hroom : s.hasRoom chunk.length = true := State.hasRoom_of_le h rfl (by rw [List.length_append]; omega)
  induction rest generalizing chunk s with
  | nil =>
    refine ⟨(s.feedChunk chunk).reply, ?_⟩
    have hone := runFeeds_cons_of_some (rest := []) (s := s) (chunk := chunk) rfl
    rw [hone, State.feedChunk_of_room hroom, State.push_of_room hroom]
    simp
  | cons next rest ih =>
    have hle := extractFrames_le (s.buf ++ chunk)
    have hfed := State.feedChunk_of_room hroom
    have hnext : (s.feedChunk chunk).hasRoom (next ++ rest.flatten).length = true := by
      refine State.hasRoom_of_le h rfl ?_
      rw [hfed]
      simp only [List.flatten_cons, List.length_append, List.length_drop]
      omega
    obtain ⟨r, hr⟩ := ih next (s.feedChunk chunk) hnext (State.hasRoom_of_le hnext rfl (by rw [List.length_append]; omega))
    refine ⟨r, ?_⟩
    rw [runFeeds_cons_of_some hr, hfed, State.push_of_room hroom, List.flatten_cons, ← List.append_assoc s.buf,
      extractFrames_append (s.buf ++ chunk) (next ++ rest.flatten), ← List.drop_drop, List.drop_append_of_le_length hle]

/-! ## A frame in pieces -/

/-- A proper initial part of a frame is no complete candidate, so its scan finds and consumes nothing (R142). -/
theorem extractFrames_of_proper_prefix {p q : Bytes} {r : Frame} (h : parseFrame (p ++ q) = .ok r)
    (hlen : r.frameLen = (p ++ q).length) (hq : q ≠ []) : extractFrames p = Scan.start := by
  obtain ⟨hhead, -, -, rfl⟩ := parseFrame_ok h
  have hdecl : declaredLen (p ++ q) = (p ++ q).length := hlen
  cases p with
  | nil => rfl
  | cons b p =>
    refine extractFrames_of_incomplete hhead (Bool.eq_false_iff.2 fun hcomplete => ?_)
    have hle := ((frameComplete_iff _).1 hcomplete).2.2
    have hpos := List.length_pos_iff.2 hq
    rw [declaredLen_append_of_complete q hcomplete, List.length_append] at hdecl
    omega

/-- The pieces before the last bring no frame and stay in the buffer. -/
theorem runFeeds_of_proper_prefix {pieces : List Bytes} {q : Bytes} {r : Frame} {s : State} (h : parseFrame (pieces.flatten ++ q) = .ok r)
    (hlen : r.frameLen = (pieces.flatten ++ q).length) (hq : q ≠ []) (hempty : s.buf = [])
    (hroom : s.hasRoom (pieces.flatten ++ q).length = true) :
    ∃ reply, runFeeds pieces s = some ([], 0, { s with buf := pieces.flatten, reply := reply }) := by
  have hscan := extractFrames_of_proper_prefix h hlen hq
  cases pieces with
  | nil => exact ⟨s.reply, by rw [List.flatten_nil, ← hempty]; rfl⟩
  | cons chunk rest =>
    obtain ⟨reply, hrun⟩ := runFeeds_of_room chunk rest s (State.hasRoom_of_le hroom rfl (by
      rw [List.flatten_cons, List.length_append (bs := q)]; omega))
    refine ⟨reply, ?_⟩
    rw [List.flatten_cons] at hscan
    rw [hrun, hempty, List.nil_append, hscan]
    rfl

/-! ## A stuck buffer (R182) -/

theorem State.stuck_iff (s : State) :
    s.stuck = true ↔ ∃ c, s.cfg.cap = some c ∧ byteAt s.buf 0 = HEADER ∧ 7 + frameAddrSize s.buf ≤ s.buf.length ∧ s.buf.length ≤ c ∧
      c < declaredLen s.buf := by
  unfold State.stuck
  cases s.cfg.cap <;> simp [and_assoc]

/-- A stuck buffer's candidate can never be complete, so that nothing is found or consumed. -/
theorem extractFrames_of_stuck {s : State} (h : s.stuck = true) : extractFrames s.buf = Scan.start := by
  obtain ⟨c, -, hhead, -, hle, hdecl⟩ := (State.stuck_iff s).1 h
  exact extractFrames_of_incomplete hhead ((frameComplete_eq_false_iff _).2 (by omega))

/-- Pushing to a stuck buffer leaves it stuck. -/
theorem State.stuck_push {s : State} (h : s.stuck = true) (chunk : Bytes) : (s.push chunk).stuck = true := by
  obtain ⟨c, hcap, hhead, hfield, hle, hdecl⟩ := (State.stuck_iff s).1 h
  have hwf : (s.push chunk).wf = true := s.wf_push chunk ((Memory.wf_iff _ _).2 fun c' hc' => by
    rw [hcap] at hc'
    cases hc'
    exact hle)
  refine (State.stuck_iff _).2 ⟨c, hcap, ?_, ?_, (Memory.wf_iff _ _).1 hwf c hcap, ?_⟩ <;> rw [State.push_buf]
  · rw [byteAt_append_left _ (by omega), hhead]
  · rw [frameAddrSize_append _ (by omega), List.length_append]
    omega
  · rwa [declaredLen_append _ (by omega) hfield]

/-! ## A frame that arrives -/

/-- The fields of a control word given by its bytes (R65). -/
theorem cwFields_cwOfBytes (a b c d : Byte) :
    cwProtoType (cwOfBytes a b c d) = a ∧ cwProtoVer (cwOfBytes a b c d) = b ∧ cwCategory (cwOfBytes a b c d) = c ∧
      cwCode (cwOfBytes a b c d) = d := by
  have hbytes := be32_cwOfBytes a b c d
  simp only [be32, List.cons.injEq, and_true] at hbytes
  exact hbytes

section Formats

variable {protoType protoVer category code addr : Byte} {payload : Bytes}

theorem frameBody_of_plain (h : cwRs485 (cwOfBytes protoType protoVer category code) = false) :
    frameBody (cwOfBytes protoType protoVer category code) addr payload =
      [protoType, protoVer, category, code] ++ be16 (BitVec.ofNat 16 payload.length) ++ payload := by
  rw [frameBody, be32_cwOfBytes, h]
  rfl

theorem frameBody_of_addr (h : cwRs485 (cwOfBytes protoType protoVer category code) = true) :
    frameBody (cwOfBytes protoType protoVer category code) addr payload =
      [protoType, protoVer, category, code, addr] ++ be16 (BitVec.ofNat 16 payload.length) ++ payload := by
  rw [frameBody, be32_cwOfBytes, h]
  rfl

end Formats

/-- A frame whose check is right, fed to an empty buffer with room for it, is the one frame found, its fields as sent, and the buffer is
empty again. -/
theorem State.feedChunk_checkedFrame (protoType protoVer category code addr : Byte) {payload : Bytes} (hp : payload.length ≤ 65535)
    {s : State} (hempty : s.buf = []) {a : Nat} (ha : addrSize (cwOfBytes protoType protoVer category code) = a)
    (hroom : s.hasRoom (9 + a + payload.length) = true) :
    ∃ r : Frame,
      s.feedChunk (checkedFrame (cwOfBytes protoType protoVer category code) addr payload) =
        { s with reply := some (.fed [r] 0 (9 + a + payload.length)) } ∧
      r.protoType = protoType ∧ r.protoVer = protoVer ∧ r.category = category ∧ r.code = code ∧
      r.addr = (if cwRs485 (cwOfBytes protoType protoVer category code) then some addr else none) ∧
      r.payload = payload ∧ r.frameLen = 9 + a + payload.length := by
  obtain ⟨htype, hver, hcategory, hcode⟩ := cwFields_cwOfBytes protoType protoVer category code
  have hrecord := frameRecord_checkedFrame (cwOfBytes protoType protoVer category code) addr hp
  obtain ⟨hlen, -⟩ := checkedFrame_fields (cwOfBytes protoType protoVer category code) addr hp ha
  have hscan := extractFrames_of_valid (parseFrame_checkedFrame (cwOfBytes protoType protoVer category code) addr hp) (by rw [hrecord])
  rw [hlen] at hrecord hscan
  refine ⟨frameRecord (checkedFrame (cwOfBytes protoType protoVer category code) addr payload), ?_, ?_⟩
  · rw [← hlen] at hroom
    rw [State.feedChunk_of_room hroom, hempty, List.nil_append, hscan, hlen, ← hlen, List.drop_length, ← hempty]
  · rw [hrecord]
    exact ⟨htype, hver, hcategory, hcode, rfl, rfl, rfl⟩

/-! ## The obligations -/

/-- Settles O41: a push of one byte, which fits or finds the buffer full. -/
theorem pushByteAppendsOrOverflows : Obligations.PushByteAppendsOrOverflows := by
  refine fun b s => ⟨fun h => ?_, fun c hcap hfull => ?_⟩
  · have hroom : s.hasRoom [b].length = true := (State.hasRoom_iff s _).2 fun c hc => by
      rcases h with hnone | ⟨c', hc', hlt⟩
      · rw [hnone] at hc
        cases hc
      · rw [hc'] at hc
        cases hc
        exact hlt
    have hcount := acceptedCount_of_room ((State.hasRoom_iff s _).1 hroom)
    rw [List.length_singleton] at hcount
    rw [exec_bufPushb, State.push_of_room hroom, hcount]
    rfl
  · have hcount : acceptedCount s.cfg.cap s.buf.length 1 = 0 := by
      rw [hcap, acceptedCount_some]
      omega
    rw [exec_bufPushb, State.push_of_full hcap hfull (List.cons_ne_nil b []), hcount]
    rfl

/-- Settles O42: k is the accepted count. -/
theorem pushKeepsWhatFits : Obligations.PushKeepsWhatFits := by
  refine fun chunk s => ⟨_, exec_bufPush chunk s, acceptedCount_le _ _ _, fun hcap => ?_, fun c hcap => ?_, fun j hj => ?_⟩
  · rw [hcap, acceptedCount_none]
  · rw [hcap, acceptedCount_some]
  · exact Memory.read_append_left _ _ hj

/-- Settles O43: `execAll_bufPushb`. -/
theorem pushIsRepeatedPushByte : Obligations.PushIsRepeatedPushByte := by
  intro chunk s
  obtain ⟨r, hr⟩ := execAll_bufPushb chunk s
  exact ⟨_, _, exec_bufPush chunk s, hr, rfl⟩

/-- Settles O44: BUF.TRIM on each of its two outcomes. -/
theorem trimRemovesOldest : Obligations.TrimRemovesOldest :=
  fun n s => ⟨fun hle => ⟨_, exec_bufTrim_of_le hle, rfl, List.length_drop, fun j => Memory.read_drop s.buf n j⟩,
    fun hlt => exec_bufTrim_of_lt hlt⟩

/-- Settles O45: BUF.LEN after BUF.CLEAR is a run of two operations. -/
theorem clearAndLength : Obligations.ClearAndLength :=
  fun s => ⟨exec_bufClear s, exec_bufLen s, execAll_cons_of_next [.bufLen] (exec_bufClear s)⟩

/-- Settles O46: the state between is that of the push, and the consumed count is within its buffer. -/
theorem feedIsItsExpansion : Obligations.FeedIsItsExpansion :=
  fun chunk s => ⟨s.push chunk, _, _, _, _, exec_bufPush chunk s, exec_extract _,
    exec_bufTrim_of_le (extractFrames_le (s.push chunk).buf), exec_feed chunk s⟩

/-- Settles O47: the scan ends at the end of the pushed buffer or at an incomplete candidate, which is shorter than it declares. -/
theorem feedLeavesIncompleteCandidate : Obligations.FeedLeavesIncompleteCandidate := by
  refine fun chunk s => ⟨_, exec_feed chunk s, ?_⟩
  rw [State.feedChunk_buf]
  rcases extractFrames_end (s.push chunk).buf with hall | ⟨-, hhead, hincomplete⟩
  · rw [hall, List.drop_length]
    exact ⟨Nat.zero_le _, .inl rfl⟩
  · have hshort := (frameComplete_eq_false_iff _).1 hincomplete
    have hmax := declaredLen_le ((s.push chunk).buf.drop (extractFrames (s.push chunk).buf).i)
    have hsize := frameAddrSize_le_one ((s.push chunk).buf.drop (extractFrames (s.push chunk).buf).i)
    exact ⟨by omega, .inr ⟨hhead, hshort⟩⟩

/-- Settles O48: `runFeeds_of_room` for the chunks and for the whole as one chunk. -/
theorem chunkingDoesNotMatter : Obligations.ChunkingDoesNotMatter := by
  intro chunks s hne hroom
  cases chunks with
  | nil => exact absurd rfl hne
  | cons chunk rest =>
    obtain ⟨r, hr⟩ := runFeeds_of_room chunk rest s hroom
    obtain ⟨r', hr'⟩ := runFeeds_of_room (chunk :: rest).flatten [] s (by rwa [List.flatten_nil, List.append_nil])
    rw [List.flatten_nil, List.append_nil] at hr'
    exact ⟨_, _, _, _, hr, hr', rfl⟩

/-- Settles O49: the pieces before the last stay in the buffer, and the last completes the frame. -/
theorem splitFrameReturnedOnce : Obligations.SplitFrameReturnedOnce := by
  intro pieces last r s h hlen hne hempty hroom
  obtain ⟨reply, hrun⟩ := runFeeds_of_proper_prefix h hlen hne hempty hroom
  refine ⟨_, _, hrun, rfl, exec_feed last _, ?_⟩
  have hlast : ({ s with buf := pieces.flatten, reply := reply } : State).hasRoom last.length = true :=
    State.hasRoom_of_le hroom rfl (by simp)
  rw [State.feedChunk_of_room hlast, extractFrames_of_valid h hlen]
  exact ⟨rfl, List.drop_length, rfl⟩

/-- Settles O50: a push leaves the buffer stuck, and the scan of a stuck buffer finds and consumes nothing. -/
theorem oversizedCandidateIsStuck : Obligations.OversizedCandidateIsStuck := by
  intro s h
  refine ⟨fun chunk => ?_, ?_, _, exec_bufClear s, ?_, rfl⟩
  · have hstuck := State.stuck_push h chunk
    have hscan := extractFrames_of_stuck hstuck
    refine ⟨_, acceptedCount s.cfg.cap s.buf.length chunk.length, exec_feed chunk s, ?_⟩
    rw [State.feedChunk, hscan]
    exact ⟨hstuck, rfl, rfl⟩
  · rw [exec_extract, extractFrames_of_stuck h]
    rfl
  · rw [Bool.eq_false_iff, ne_eq, State.stuck_iff]
    rintro ⟨c, -, hhead, -⟩
    cases hhead

/-- Settles O51: the frame's bytes, its format being what bit 13 says. -/
theorem frameArrivalIsFeed : Obligations.FrameArrivalIsFeed := by
  refine ⟨fun protoType protoVer category code payload crc s hwf => ⟨_, exec_framePlain .., ?_⟩,
    fun protoType protoVer category code addr payload crc s hwf => ⟨_, exec_frameAddr .., ?_⟩⟩
  · obtain ⟨-, hbit⟩ := wellFormed_framePlain_iff.1 hwf
    rw [exec_feed, wireFrame, frameBody_of_plain hbit]
    rfl
  · obtain ⟨-, hbit⟩ := wellFormed_frameAddr_iff.1 hwf
    rw [exec_feed, wireFrame, frameBody_of_addr hbit]
    rfl

/-- Settles O52: a frame whose CRC field matches is a `checkedFrame`, with one address byte when bit 13 is set. -/
theorem cleanFrameArrives : Obligations.CleanFrameArrives := by
  refine ⟨fun protoType protoVer category code payload s => ?_, fun protoType protoVer category code addr payload s => ?_⟩ <;>
    intro body hwf hempty hroom
  · obtain ⟨hp, hbit⟩ := wellFormed_framePlain_iff.1 hwf
    have ha : addrSize (cwOfBytes protoType protoVer category code) = 0 := by rw [addrSize, hbit]; rfl
    obtain ⟨r, hfeed, hfields⟩ := State.feedChunk_checkedFrame protoType protoVer category code 0 hp hempty ha hroom
    rw [checkedFrame, frameBody_of_plain hbit] at hfeed
    rw [hbit] at hfields
    exact ⟨r, congrArg Host.Outcome.next hfeed, hfields⟩
  · obtain ⟨hp, hbit⟩ := wellFormed_frameAddr_iff.1 hwf
    have ha : addrSize (cwOfBytes protoType protoVer category code) = 1 := by rw [addrSize, hbit]; rfl
    obtain ⟨r, hfeed, hfields⟩ := State.feedChunk_checkedFrame protoType protoVer category code addr hp hempty ha hroom
    rw [checkedFrame, frameBody_of_addr hbit] at hfeed
    rw [hbit] at hfields
    exact ⟨r, congrArg Host.Outcome.next hfeed, hfields⟩

end Sys2Proof.Machine
end

section
/-! Bytes through the buffer (spec/10_state.md R22, spec/20_memory.md R52): what enters and what leaves by each instruction, over any run
and over a step, and the obligations about them. -/

namespace Sys2Proof.Machine

theorem offered_of_not_writesBuf {i : Instr} (h : writesBuf i = false) : offered i = [] := by
  cases i <;> cases h <;> rfl

theorem removedCount_of_not_removes {i : Instr} (s : State) (h : removesBytes i = false) : removedCount i s = 0 := by
  cases i <;> cases h <;> rfl

theorem not_removes_of_not_writesBuf {i : Instr} (h : writesBuf i = false) : removesBytes i = false := by
  cases i <;> cases h <;> rfl

/-- No more is removed than is there. -/
theorem removedCount_le (i : Instr) (s : State) : removedCount i s ≤ (s.buf ++ accepted i s).length := by
  cases i
  case bufTrim n =>
    rw [removedCount, List.length_append]
    split <;> omega
  case bufClear =>
    rw [removedCount, List.length_append]
    exact Nat.le_add_right _ _
  case feed => exact extractFrames_le _
  case framePlain => exact extractFrames_le _
  case frameAddr => exact extractFrames_le _
  all_goals exact Nat.zero_le _

/-- Every instruction appends what it offers and fits, and then removes its count of the oldest bytes (R22). -/
theorem exec_buf {i : Instr} {s t : State} (h : exec i s = .next t) :
    t.buf = (s.buf ++ accepted i s).drop (removedCount i s) := by
  cases hwrites : writesBuf i with
  | false =>
    rw [exec_buf_of_not_writes h hwrites, accepted_of_offered_nil s (offered_of_not_writesBuf hwrites),
      removedCount_of_not_removes s (not_removes_of_not_writesBuf hwrites), List.append_nil, List.drop_zero]
  | true =>
    cases i <;> cases hwrites
    case true.bufTrim.refl n =>
      rw [accepted_of_offered_nil s rfl, List.append_nil, removedCount]
      split
      next hle =>
        rw [exec_bufTrim_of_le hle] at h
        cases h
        rfl
      next hlt =>
        rw [exec_bufTrim_of_lt (not_le.1 hlt)] at h
        cases h
        rfl
    case true.bufClear.refl =>
      rw [accepted_of_offered_nil s rfl, List.append_nil, removedCount, List.drop_length]
      cases h
      rfl
    all_goals cases h; rfl

/-- Over any run, what was there followed by all that entered is all that left followed by what is there (R52). -/
theorem exists_runStream (is : List Instr) (s : State) :
    ∃ (entered left : Bytes) (t : State),
      runStream is s = some (entered, left, t) ∧ execAll is s = .next t ∧ s.buf ++ entered = left ++ t.buf := by
  induction is generalizing s with
  | nil => exact ⟨[], [], s, rfl, rfl, List.append_nil _⟩
  | cons i rest ih =>
    obtain ⟨t, ht, -⟩ := everyInstructionCompletes i s
    obtain ⟨entered, left, u, hstream, hall, hbytes⟩ := ih t
    refine ⟨accepted i s ++ entered, removed i s ++ left, u, by simp only [runStream, ht, hstream], ?_, ?_⟩
    · rw [execAll_cons_of_next rest ht, hall]
    · calc s.buf ++ (accepted i s ++ entered)
        _ = removed i s ++ t.buf ++ entered := by rw [exec_buf ht, removed_append_rest, List.append_assoc]
        _ = removed i s ++ left ++ u.buf := by rw [List.append_assoc, hbytes, List.append_assoc]

/-- An instruction that removes nothing leaves the old buffer with what entered behind it. -/
theorem exec_buf_of_not_removes {i : Instr} {s t : State} (h : exec i s = .next t) (hi : removesBytes i = false) :
    t.buf = s.buf ++ accepted i s := by
  rw [exec_buf h, removedCount_of_not_removes s hi, List.drop_zero]

/-! ## The obligations -/

/-- Settles O37: the buffer after one instruction and over a run, and the places of a scan's frames. -/
theorem firstInFirstOut : Obligations.FirstInFirstOut :=
  ⟨fun i s _ h => ⟨exec_buf h, removedCount_le i s⟩, exists_runStream, exists_framesStandAt, fun s => ⟨_, exec_extract s, rfl⟩,
    fun chunk s => ⟨_, _, exec_bufPush chunk s, exec_feed chunk s, _, rfl⟩⟩

/-- Settles O54: instructions by `exec_buf`, and a step by what its input was. -/
theorem bufferGrowsAtTailShrinksAtHead : Obligations.BufferGrowsAtTailShrinksAtHead := by
  refine ⟨fun i s t h => ⟨exec_wf h, exec_buf h, exec_buf_of_not_removes h, exec_buf_of_not_writes h⟩, fun s t h => ?_⟩
  rcases step_cases h with ⟨-, rfl⟩ | ⟨rest, hin, -⟩ | ⟨r, rest, i, hin, hd, hexec⟩ | ⟨bytes, rest, why, hin, -, -⟩
  · exact .inl List.prefix_rfl
  · exact .inr (.inl ⟨rest, hin⟩)
  · cases hremoves : removesBytes i with
    | false => exact .inl ⟨_, (exec_buf_of_not_removes hexec hremoves).symm⟩
    | true => exact .inr (.inr (.inl ⟨r, rest, i, hin, hd, hremoves⟩))
  · exact .inr (.inr (.inr ⟨bytes, rest, hin⟩))

end Sys2Proof.Machine
end
